-- ==== Sys2Proof/Word.lean ====
section
/-! DEFINITION. The words of the CORE executor: the widths of 00_scope.md R5 as fixed bit vectors. -/

namespace Sys2Proof

/-- `REG_WIDTH` = 32 bits, two's complement (R11); read as a signed integer with `BitVec.toInt`. -/
abbrev Word := BitVec 32

/-- `CYCLE_WIDTH` = 64 bits, unsigned (R14). -/
abbrev CycleCount := BitVec 64

/-- `PC_WIDTH` = 32 bits, unsigned, counting instructions (R16). -/
abbrev Pc := BitVec 32

/-- `INSTR_WIDTH` = 33 bits: the binary instruction word (R50). -/
abbrev InstrWord := BitVec 33

/-- A character of the program text, an exact byte (R40 to R42). -/
abbrev Byte := BitVec 8

end Sys2Proof
end

