-- ==== Sys2Proof/Config.lean ====
section
/-! DEFINITION. The implementation parameters of 00_scope.md R5 that are not widths. -/

namespace Sys2Proof

/-- The largest program length, `2^PC_WIDTH - 1` (R5, D3). -/
def Config.maxProgramLength : Nat := 2 ^ 32 - 1

/-- `MAX_COST` (R5, R57). -/
def Config.maxCost : Nat := 2

/-- `W`, the raster width in columns (R5, R97). -/
def Config.rasterWidth : Nat := 40

/-- The source's example of `TARGETS`: every 40th cycle starting at 20 (R5, R94). -/
def Config.exampleTargets : List Nat := [20, 60, 100, 140, 180, 220]

/-- The default of `STRICT_EDGES` (R5, D19). The observers take the parameter as an argument. -/
def Config.strictEdges : Bool := false

end Sys2Proof
end

