-- ==== Sys2Proof/Syntax.lean ====
section
/-! DEFINITION. The decoded instructions (30_encoding.md R49) and what a decoder reports when it refuses. -/

namespace Sys2Proof

/-- A decoded instruction: a closed tagged variant of two (R49), one constructor per row of the opcode table. -/
inductive Instr where
  /-- `noop`, no operand (R77). -/
  | noop
  /-- `addx delta`, the signed immediate (R78). Its range is the check of `Instr.wf` (R44).
  DESIGN CHOICE (log entry 15): an integer with a check, not a 32-bit pattern. -/
  | addx (delta : Int)
deriving DecidableEq, Repr

/-- The program store's contents: entry `k` is `Program[k]` (10_state.md R18, 20_memory.md R26). A sequence without
holes, so equal stores are equal lists; an address from N on is no entry (log entry 2). -/
abbrev Memory := List Instr

/-- Why one line or word is refused. The spec has one error kind (R82); these names are the model's own and never reach
the error record (log entry 10). -/
inductive DecodeCause where
  /-- The line has no token (R47). -/
  | blankLine
  /-- The first token is neither `noop` nor `addx` (R47). -/
  | unknownMnemonic
  /-- `addx` alone (R46). -/
  | missingOperand
  /-- A token after `noop` or after the operand of `addx` (R45, R46). -/
  | extraToken
  /-- The operand does not match `-?[0-9]+` (R43). -/
  | malformedOperand
  /-- The operand's value is outside [-2^31, 2^31 - 1] (R44). -/
  | operandOutOfRange
  /-- `op = 0` with `imm != 0` (R53). -/
  | reservedWord
deriving DecidableEq, Repr

/-- What a DecodeError quotes: the offending line's text, or the reserved word (R83). -/
inductive Offending where
  | line (text : List Byte)
  | word (w : InstrWord)
deriving DecidableEq, Repr

/-- DecodeError, code 1: the 1-based line number, or word index + 1, and the offending line (R48, R53, R83). -/
structure DecodeError where
  line : Nat
  offending : Offending
deriving DecidableEq, Repr

end Sys2Proof
end

