-- ==== Sys2Proof/WellFormed.lean ====
section
/-! DEFINITION. Well-formed instructions, program stores and target sets. -/

namespace Sys2Proof

/-- An operand lies in the range of `REG_WIDTH` = 32 bits (R44, R49). -/
def Instr.wf : Instr → Bool
  | .noop => true
  | .addx d => decide (-(2 ^ 31) ≤ d) && decide (d ≤ 2 ^ 31 - 1)

/-- The form of a program store: every entry is a decoded instruction (R49) and `N <= 2^PC_WIDTH - 1` (R5). -/
def Memory.wf (p : Memory) : Bool :=
  p.all Instr.wf && decide (p.length ≤ Config.maxProgramLength)

/-- `TARGETS` is a finite set of distinct positive cycle ordinals (R5, R94). -/
def Targets.wf (targets : List Nat) : Bool :=
  targets.all (fun t => decide (1 ≤ t)) && decide targets.Nodup

end Sys2Proof
end

