-- ==== Sys2Proof/Decode.lean ====
section
/-! DEFINITION. The load port's decoders (30_encoding.md R39 to R54), total on any bytes and any word, and after them the
encoder (R52) and the canonical printer (R55). -/

namespace Sys2Proof

/-! ## Bit fields and sign (R6, R51, R52) -/

/-- `signed_32(b)`: the pattern read as a two's-complement integer (R6). -/
def signed32 (b : BitVec 32) : Int := b.toInt

/-- Bit 32 of the word, the `op` field (R51). -/
def opField (w : InstrWord) : BitVec 1 := w.extractLsb' 32 1

/-- Bits 31:0 of the word, the `imm` field (R51). -/
def immField (w : InstrWord) : BitVec 32 := w.extractLsb' 0 32

/-! ## The binary instruction word -/

/-- The verdict on a 33-bit word (R53). -/
def decodeWord (w : InstrWord) : Except DecodeCause Instr :=
  if opField w = 1#1 then .ok (.addx (signed32 (immField w)))
  else if immField w = 0#32 then .ok .noop
  else .error .reservedWord

/-- The 33-bit word whose bits the opcode table numbers as `w` has them; bits from `nbits` up are 0. A number with a bit
above 32 is no instruction word. DESIGN CHOICE (log entry 9). -/
def tableWord (nbits w : Nat) : Option InstrWord :=
  if w % 2 ^ nbits < 2 ^ 33 then some (BitVec.ofNat 33 (w % 2 ^ nbits)) else none

/-- What the decoder reads from an instruction whose bits are `w`. -/
def decodeTableWord (nbits w : Nat) : Option Instr :=
  match tableWord nbits w with
  | none => none
  | some word =>
    match decodeWord word with
    | .ok i => some i
    | .error _ => none

/-! ## The text form -/

/-- LF, 0x0A (R40). -/
def lf : Byte := 0x0A#8
/-- CR, 0x0D (R40). -/
def cr : Byte := 0x0D#8
/-- Space, 0x20 (R41). -/
def space : Byte := 0x20#8
/-- Horizontal tab, 0x09 (R41). -/
def tab : Byte := 0x09#8
/-- The sign `-` (R43). -/
def minus : Byte := 0x2D#8

/-- The exact bytes of `noop` (R42). -/
def noopBytes : List Byte := [0x6E#8, 0x6F#8, 0x6F#8, 0x70#8]
/-- The exact bytes of `addx` (R42). -/
def addxBytes : List Byte := [0x61#8, 0x64#8, 0x64#8, 0x78#8]

/-- Line splitting (R40): at each LF, a CR directly before it going with it; a final terminator starts no further line. -/
def splitLines : List Byte → List (List Byte)
  | [] => []
  | b :: bs =>
    if b = lf then [] :: splitLines bs
    else if b = cr ∧ bs.head? = some lf then splitLines bs
    else
      match splitLines bs with
      | [] => [[b]]
      | l :: ls => (b :: l) :: ls

/-- Space or horizontal tab, the only separators (R41). -/
def isBlank (b : Byte) : Bool := b = space || b = tab

/-- The next byte ends a token: there is none, or it is a separator. -/
def tokenEnds : List Byte → Bool
  | [] => true
  | b :: _ => isBlank b

/-- Tokenising a line: the maximal runs of bytes other than space and tab (R41). -/
def tokens : List Byte → List (List Byte)
  | [] => []
  | b :: bs =>
    if isBlank b then tokens bs
    else if tokenEnds bs then [b] :: tokens bs
    else
      match tokens bs with
      | [] => [[b]]
      | t :: ts => (b :: t) :: ts

/-- A decimal digit, 0x30 to 0x39 (R43). -/
def isDigit (b : Byte) : Bool := decide (0x30 ≤ b.toNat) && decide (b.toNat ≤ 0x39)

/-- The value of a run of decimal digits, the first the most significant. -/
def digitsValue (ds : List Byte) : Nat := ds.foldl (fun n b => 10 * n + (b.toNat - 0x30)) 0

/-- The operand's value lies in the range of the register (R44). -/
def operandInRange (d : Int) : Bool := decide (-(2 ^ 31) ≤ d) && decide (d ≤ 2 ^ 31 - 1)

/-- The value of a run of digits with its sign (R43). -/
def signedValue (negative : Bool) (ds : List Byte) : Int :=
  if negative then -(digitsValue ds : Int) else (digitsValue ds : Int)

/-- The digits of an operand with their sign taken off: one or more digits and nothing else (R43), in range (R44). -/
def decodeMagnitude (negative : Bool) (ds : List Byte) : Except DecodeCause Instr :=
  if ds.isEmpty || !ds.all isDigit then .error .malformedOperand
  else if operandInRange (signedValue negative ds) then .ok (.addx (signedValue negative ds))
  else .error .operandOutOfRange

/-- The operand token of `addx` (R43, R44). -/
def decodeOperand (token : List Byte) : Except DecodeCause Instr :=
  match token with
  | [] => .error .malformedOperand
  | b :: ds => if b = minus then decodeMagnitude true ds else decodeMagnitude false (b :: ds)

/-- One line (R41 to R47). Where a line has several defects the cause named is the first one met here (log entry 10). -/
def decodeLine (line : List Byte) : Except DecodeCause Instr :=
  match tokens line with
  | [] => .error .blankLine
  | mnemonic :: operands =>
    if mnemonic = noopBytes then
      match operands with
      | [] => .ok .noop
      | _ :: _ => .error .extraToken
    else if mnemonic = addxBytes then
      match operands with
      | [] => .error .missingOperand
      | [operand] => decodeOperand operand
      | _ :: _ :: _ => .error .extraToken
    else .error .unknownMnemonic

/-! ## Whole programs -/

/-- `LoadProgram`'s loop (R48): in order, the first item that does not decode is the error, with its 1-based number. -/
def decodeAll {α : Type} (decode : α → Except DecodeCause Instr) (quote : α → Offending) :
    Nat → List α → Except DecodeError Memory
  | _, [] => .ok []
  | n, x :: xs =>
    match decode x with
    | .error _ => .error ⟨n, quote x⟩
    | .ok i =>
      match decodeAll decode quote (n + 1) xs with
      | .error e => .error e
      | .ok p => .ok (i :: p)

/-- `LoadProgram(text)` (R48). -/
def loadText (text : List Byte) : Except DecodeError Memory :=
  decodeAll decodeLine Offending.line 1 (splitLines text)

/-- The load port on the binary form: a sequence of 33-bit words (R53, R69). -/
def loadWords (words : List InstrWord) : Except DecodeError Memory :=
  decodeAll decodeWord Offending.word 1 words

/-! ## Encoder and printer -/

/-- The word of an instruction: the fields op and imm joined, imm = delta mod 2^32 (R51, R52). -/
def encode : Instr → InstrWord
  | .noop => 0#1 ++ 0#32
  | .addx d => 1#1 ++ BitVec.ofInt 32 d

/-- One decimal digit as a byte. -/
def digitByte (n : Nat) : Byte := BitVec.ofNat 8 (0x30 + n)

/-- The decimal digits of `n`, most significant first, at most `fuel` of them. -/
def decimalDigits : Nat → Nat → List Byte
  | 0, _ => []
  | fuel + 1, n =>
    if n < 10 then [digitByte n] else decimalDigits fuel (n / 10) ++ [digitByte (n % 10)]

/-- `n` in decimal with no leading zeros (R55). The fuel is enough: a number has no more decimal digits than bits. -/
def printNat (n : Nat) : List Byte := decimalDigits (n.log2 + 1) n

/-- `d` in decimal, a leading `-` if negative (R55). -/
def printInt (d : Int) : List Byte :=
  if d < 0 then minus :: printNat d.natAbs else printNat d.natAbs

/-- The canonical spelling (R55). -/
def printInstr : Instr → List Byte
  | .noop => noopBytes
  | .addx d => addxBytes ++ space :: printInt d

/-- A program's text: the canonical spelling of each instruction, each line ended by LF (R39, R55). -/
def printProgram (p : Memory) : List Byte := p.flatMap (fun i => printInstr i ++ [lf])

/-! ## The opcode table -/

/-- A row of spec/opcode_table.json: a word belongs to it when its bits under `mask` are `pattern`. -/
structure OpcodeRow where
  mnemonic : String
  mask : InstrWord
  pattern : InstrWord
deriving DecidableEq, Repr

/-- The row `noop` (R51). -/
def noopRow : OpcodeRow := ⟨"noop", 0x1FFFFFFFF#33, 0x000000000#33⟩
/-- The row `addx` (R51). -/
def addxRow : OpcodeRow := ⟨"addx", 0x100000000#33, 0x100000000#33⟩

/-- The row an instruction is an instance of (R51). -/
def rowOf : Instr → OpcodeRow
  | .noop => noopRow
  | .addx _ => addxRow

/-- The word belongs to the row. -/
def rowMatches (r : OpcodeRow) (w : InstrWord) : Bool := w &&& r.mask = r.pattern

end Sys2Proof
end

