-- ==== Sys2Proof/Machine/State.lean ====
section
/-! DEFINITION. The state of one CORE executor (10_state.md), the reasons a request can stop, and the state after reset. -/

namespace Sys2Proof.Machine

/-- The program store together with the load port's last verdict (R18, R26, R69, R106). -/
inductive Store where
  /-- Nothing has been loaded yet: there is no Program and so no machine to run (R107; log entry 1). -/
  | empty
  /-- The last load ended in DecodeError: no Program is installed and no machine exists (R83, R106). -/
  | rejected (e : DecodeError)
  /-- The installed Program (R18). -/
  | loaded (p : Memory)
deriving DecidableEq, Repr

/-- The executor's state (R10). -/
structure State where
  /-- The Program, and the load port's verdict (R18, R26, R106). -/
  store : Store
  /-- `reg`, the one register, two's complement (R11). -/
  reg : Word
  /-- `cycle`, the cycles fully elapsed since reset (R14). -/
  cycle : CycleCount
  /-- `pc`, the index of the next instruction to dispatch (R16). -/
  pc : Pc
  /-- `phase`, the cycles of the current instruction already elapsed (R23, R70). -/
  phase : BitVec 1
  /-- `err`, sticky (R22). -/
  err : BitVec 1
  /-- `err_code` (R22). -/
  errCode : BitVec 2
deriving DecidableEq, Repr

/-- Why the machine stops. -/
inductive Fault where
  /-- InvalidStateError, code 2 (R84, R86): raised by a step or a tick on a Halted machine, before any fetch. It carries
  the machine the error leaves behind, with `err` and `err_code` written (R22). Safe: the spec calls it a fault and says
  what it leaves (log entry 3). -/
  | invalidStateError (after : State)
deriving DecidableEq, Repr

/-- Why a request has no meaning. -/
inductive Refusal where
  /-- Raised by no arm of this model: every instruction has its meaning. Safe. -/
  | notModelled (mnemonic : String)
  /-- Raised by a step or a tick while no Program is installed, "because there is nothing to run" (R106). Safe: the spec
  refuses the request itself. -/
  | noProgram
  /-- Raised by a load of more than `2^PC_WIDTH - 1` instructions, which R5 rules out (log entry 6). Unsafe: the state it
  leaves is the model's choice. -/
  | programTooLong
deriving DecidableEq, Repr

/-- `Reset()` (R104): every register at its reset value (R13, R15, R17, R22, R23), the program store as it is. -/
def State.resetOn (store : Store) : State :=
  { store := store, reg := 1#32, cycle := 0#64, pc := 0#32, phase := 0#1, err := 0#1, errCode := 0#2 }

/-- The machine right after reset with nothing loaded yet (R104, R107; log entry 1). -/
def State.reset : State := State.resetOn .empty

end Sys2Proof.Machine
end

