-- ==== Sys2Proof/Machine/Operands.lean ====
section
/-! DEFINITION. The operand forms. The instruction set has one: the signed immediate of `addx`, added to the register
(R78, R80). Also the two pure functions of an instruction, its cost (R57) and its effect (R58). -/

namespace Sys2Proof.Machine

/-- `wrap_32(i)`: the value of a 32-bit two's-complement register congruent to `i` modulo 2^32 (R6). -/
def wrap32 (i : Int) : Word := BitVec.ofInt 32 i

/-- The register's value plus the immediate, exact and then narrowed (R58, D2). -/
def addImmediate (v : Word) (d : Int) : Word := wrap32 (signed32 v + d)

/-- `cost` (R57): the fixed cycle count, whatever the operand. -/
def cost : Instr → Nat
  | .noop => 1
  | .addx _ => 2

/-- `effect` (R58): from the register before the instruction to the register after it. Pure and total. -/
def effect : Instr → Word → Word
  | .noop, v => v
  | .addx d, v => addImmediate v d

end Sys2Proof.Machine
end

