-- ==== Sys2Proof/Machine/Flags.lean ====
section
/-! DEFINITION. The machine has no flags and no condition codes, and overflow sets none (R20). What it has in their place
is the derived run status (R19), the two error kinds with their codes (R82) and the block's other outputs (R69), all of them
functions of the state. -/

namespace Sys2Proof.Machine

/-- The run status (R19). -/
inductive Status where
  | notStarted
  | running
  | halted
deriving DecidableEq, Repr

/-- The status as the output `status` encodes it (R19, D7). -/
def Status.code : Status → BitVec 2
  | .notStarted => 0#2
  | .running => 1#2
  | .halted => 2#2

/-- The installed Program, if there is one (R18, R106). -/
def Store.program : Store → Option Memory
  | .loaded p => some p
  | .empty => none
  | .rejected _ => none

/-- The installed Program of a machine. -/
def State.program (s : State) : Option Memory := s.store.program

/-- The status formula, from `pc`, `phase` and N (R19). Halted is tested first (C3). -/
def statusOf (pc : Pc) (phase : BitVec 1) (n : Nat) : Status :=
  if pc.toNat = n then .halted
  else if pc = 0#32 ∧ phase = 0#1 then .notStarted
  else .running

/-- The run status of a machine; absent while no machine exists (R19, R106; log entry 11). -/
def State.status (s : State) : Option Status :=
  s.program.map (fun p => statusOf s.pc s.phase p.length)

/-- `now = cycle + phase`: the index of the cycle the next tick executes (R69, R70). -/
def State.now (s : State) : CycleCount := s.cycle + s.phase.zeroExtend 64

/-- The outputs of a machine (R69). -/
structure Outputs where
  regOut : Word
  cycleOut : CycleCount
  pcOut : Pc
  phaseOut : BitVec 1
  nowOut : CycleCount
  status : BitVec 2
  err : BitVec 1
  errCode : BitVec 2
deriving DecidableEq, Repr

/-- The outputs, absent while no machine exists (R69, R106; log entry 11). -/
def State.outputs (s : State) : Option Outputs :=
  s.status.map fun st =>
    { regOut := s.reg, cycleOut := s.cycle, pcOut := s.pc, phaseOut := s.phase, nowOut := s.now,
      status := st.code, err := s.err, errCode := s.errCode }

/-- The error kinds of the hardware: exactly these two (R82). -/
inductive ErrorKind where
  /-- A program that does not decode, raised by a load (R83). -/
  | decodeError
  /-- A step or tick on a Halted machine (R84). -/
  | invalidStateError
deriving DecidableEq, Repr

/-- The code of an error kind; 0 means no error (R82, D9). The code of InvalidStateError is shown on `err_code` (R22). Where
DecodeError's is shown is the model's choice (DESIGN CHOICE, log entry 20). -/
def ErrorKind.code : ErrorKind → BitVec 2
  | .decodeError => 1#2
  | .invalidStateError => 2#2

/-- `decode_err`: the last load ended in DecodeError (R69, R83). Three points are the model's choice (DESIGN CHOICE): that it
shows 0 while nothing has been loaded yet, for which the spec gives no value, and that it stands until the next load (log
entry 11); and that its 1 stands for DecodeError's code, which no signal shows as a number (log entry 20). -/
def State.decodeErr (s : State) : BitVec 1 :=
  match s.store with
  | .empty => 0#1
  | .rejected _ => 1#1
  | .loaded _ => 0#1

/-- `decode_line`: the 1-based line of the DecodeError, absent where there is none (R69). Its absence, its lifetime
and its 32 bits are the model's choice (DESIGN CHOICE, log entry 11). -/
def State.decodeLine (s : State) : Option (BitVec 32) :=
  match s.store with
  | .empty => none
  | .rejected e => some (BitVec.ofNat 32 e.line)
  | .loaded _ => none

end Sys2Proof.Machine
end

