-- ==== Sys2Proof/Machine/Ops.lean ====
section
/-! DEFINITION. The named operations over the state: raising the one error, leaving it by reset, fetching, retiring, and
writing the program store. -/

namespace Sys2Proof.Machine

/-- Raising InvalidStateError, the one error a machine can raise (R22, R84): the sticky error output is written and
nothing else. There is no trap mechanism, so nothing is saved and the pc does not move (R89). -/
def State.raiseInvalidState (s : State) : State := { s with err := 1#1, errCode := ErrorKind.invalidStateError.code }

/-- `rst`, the only way out of the error (R90, R104, R106): `Reset()` on the program store as it is. -/
def State.rst (s : State) : State := State.resetOn s.store

/-- Installing a Program, then `Reset()` on it (R106). -/
def State.install (p : Memory) : State := State.resetOn (.loaded p)

/-- A load that failed: no Program is installed (R83, R106). The registers take their reset values (log entry 4). -/
def State.reject (e : DecodeError) : State := State.resetOn (.rejected e)

/-- The terminal test and the fetch (R27, R59, R75). A step or tick is allowed only when `pc < N`, and the test comes
before the fetch; for a pc above N, which no run reaches, see log entry 7. -/
def fetch (s : State) : Host.Outcome Instr Fault Refusal :=
  match s.program with
  | none => .refused .noProgram
  | some p =>
    match p[s.pc.toNat]? with
    | none => .fault (.invalidStateError s.raiseInvalidState)
    | some i => .next i

/-- Retiring an instruction of cost `c` that leaves the register at `v` (R60, R71): the clock advances by the full cost,
the register is committed, the pc moves on by one and no cycle of the next instruction has elapsed. -/
def State.retire (s : State) (c : Nat) (v : Word) : State :=
  { s with cycle := s.cycle + BitVec.ofNat 64 c, reg := v, pc := s.pc + 1#32, phase := 0#1 }

/-- A cycle of an instruction that does not retire it (R71): only `phase` moves. -/
def State.elapse (s : State) : State := { s with phase := s.phase + 1#1 }

/-- A program with `i` at entry `k`, the other entries kept. Entries between the old end and `k` are filled with `noop`;
nothing runs them (log entry 13). -/
def Memory.placeAt (p : Memory) (k : Nat) (i : Instr) : Memory :=
  p.take k ++ List.replicate (k - p.length) .noop ++ i :: p.drop (k + 1)

/-- The store that holds the word as the instruction at the pc, or the load port's refusal of it (R26, R53). -/
def Store.withWord (store : Store) (k : Nat) (word : Option InstrWord) : Store :=
  match word with
  | none => .empty
  | some w =>
    match decodeWord w with
    | .ok i => .loaded (Memory.placeAt ((Store.program store).getD []) k i)
    | .error _ => .rejected ⟨k + 1, .word w⟩

end Sys2Proof.Machine
end

