-- ==== Sys2Proof/Machine/Instructions.lean ====
section
/-! DEFINITION. The two instructions of 41_instructions.md. Each is one retire: at instruction granularity nothing of an
instruction is seen before it (R61), and from the middle of an `addx` the step is the tick that completes it (R76). -/

namespace Sys2Proof.Machine

/-- `noop` (R77): one cycle, the register unchanged. -/
def execNoop (s : State) : Host.Outcome State Fault Refusal :=
  .next (s.retire (cost .noop) (effect .noop s.reg))

/-- `addx d` (R78): two cycles, then the register becomes `wrap_32(reg + d)`. -/
def execAddx (d : Int) (s : State) : Host.Outcome State Fault Refusal :=
  .next (s.retire (cost (.addx d)) (effect (.addx d) s.reg))

end Sys2Proof.Machine
end

