-- ==== Sys2Proof/Machine/Dispatch.lean ====
section
/-! DEFINITION. One arm per constructor of Instr. -/

namespace Sys2Proof.Machine

def exec (i : Instr) (s : State) : Host.Outcome State Fault Refusal :=
  match i with
  | .noop => Sys2Proof.Machine.execNoop s
  | .addx d => Sys2Proof.Machine.execAddx d s

end Sys2Proof.Machine
end

