-- ==== Sys2Proof/Machine/Step.lean ====
section
/-! DEFINITION. `Step()` (40_step_and_retire.md R60): the terminal test, the fetch, the instruction. -/

namespace Sys2Proof.Machine

/-- One step request. -/
def step (s : State) : Host.Outcome State Fault Refusal :=
  match fetch s with
  | .next i => exec i s
  | .fault r => .fault r
  | .refused r => .refused r

/-- The state with the word placed where `step` fetches its next instruction: the program store's entry at the pc. It
stands for a load from outside (log entry 1). -/
def State.withFetchWord (s : State) (nbits w : Nat) : State :=
  { s with store := Store.withWord s.store s.pc.toNat (tableWord nbits w) }

end Sys2Proof.Machine
end

