-- ==== Sys2Proof/Machine/Tick.lean ====
section
/-! DEFINITION. The cycle-stepped view (40_step_and_retire.md R70 to R76). -/

namespace Sys2Proof.Machine

/-- `Tick()` (R71, R75): the same terminal test and fetch as a step; the instruction retires on its last cycle. -/
def tick (s : State) : Host.Outcome State Fault Refusal :=
  match fetch s with
  | .next i => if s.phase.toNat + 1 = cost i then exec i s else .next s.elapse
  | .fault r => .fault r
  | .refused r => .refused r

/-- `n` steps, stopping at the first that does not answer a next state (R66). -/
def steps : Nat → State → Host.Outcome State Fault Refusal
  | 0, s => .next s
  | n + 1, s =>
    match step s with
    | .next t => steps n t
    | .fault r => .fault r
    | .refused r => .refused r

/-- `n` ticks, stopping at the first that does not answer a next state. -/
def ticks : Nat → State → Host.Outcome State Fault Refusal
  | 0, s => .next s
  | n + 1, s =>
    match tick s with
    | .next t => ticks n t
    | .fault r => .fault r
    | .refused r => .refused r

/-- Tick until the pc is no longer `p0`, at most `n` times. -/
def tickUntilRetire (p0 : Pc) : Nat → State → Host.Outcome State Fault Refusal
  | 0, s => .next s
  | n + 1, s =>
    match tick s with
    | .next t => if t.pc = p0 then tickUntilRetire p0 n t else .next t
    | .fault r => .fault r
    | .refused r => .refused r

/-- `Step()` of the tick-level view (R76): tick until the instruction at the pc retires, which takes at most `MAX_COST`
ticks. -/
def tickStep (s : State) : Host.Outcome State Fault Refusal := tickUntilRetire s.pc Config.maxCost s

end Sys2Proof.Machine
end

