-- ==== Sys2Proof/Machine/Timeline.lean ====
section
/-! DEFINITION. The register timeline of a run (40_step_and_retire.md R62 to R65). -/

namespace Sys2Proof.Machine

/-- The operand of an `AddX`, 0 for a `NoOp` (R24). -/
def delta : Instr → Int
  | .noop => 0
  | .addx d => d

/-- X_k: `reg` after `k` steps from reset, X_0 = 1 (R62). -/
def regAfter (p : Memory) (k : Nat) : Word := (p.take k).foldl (fun v i => effect i v) 1#32

/-- C_k: the cycles of the first `k` instructions, C_0 = 0 (R62). -/
def cycleAfter (p : Memory) (k : Nat) : Nat := ((p.take k).map cost).sum

/-- T, the total cycle count of a run (R65). -/
def totalCycles (p : Memory) : Nat := cycleAfter p p.length

/-- The register's value in every cycle of a run that begins with the register at `v`: each instruction's cycles see the
value from before it (R63). -/
def timelineFrom : Word → Memory → List Word
  | _, [] => []
  | v, i :: is => List.replicate (cost i) v ++ timelineFrom (effect i v) is

/-- The timeline of a run from reset (R13, R64). -/
def timeline (p : Memory) : List Word := timelineFrom 1#32 p

/-- val(c), with `c` a cycle index (R64). Undefined for `c >= T`: there it is absent (log entry 12). -/
def val (p : Memory) (c : Nat) : Option Word := (timeline p)[c]?

end Sys2Proof.Machine
end

