-- ==== Sys2Proof/Machine/Sampler.lean ====
section
/-! DEFINITION. The Signal Sampler (60_exceptions.md R93 to R96, R103): its contract over the timeline, and the two ways it
drives a machine of its own. -/

namespace Sys2Proof.Machine

/-- What a target adds: `t * val(t - 1)` for 1 <= t <= T, and nothing beyond the run (R94, R96). -/
def contribution (p : Memory) (t : Nat) : Int :=
  if 1 ≤ t then
    match val p (t - 1) with
    | some v => (t : Int) * signed32 v
    | none => 0
  else 0

/-- The contract (R94); the sum is exact (D20). -/
def signal (p : Memory) (targets : List Nat) : Int := (targets.map (contribution p)).sum

/-- The Sampler and the machine it owns (R93, R95). -/
structure Sampler where
  machine : State
  acc : Int
  pending : List Nat
deriving DecidableEq, Repr

/-- A fresh machine on the Program, nothing recorded yet (R95). -/
def Sampler.start (p : Memory) (targets : List Nat) : Sampler :=
  { machine := State.install p, acc := 0, pending := targets }

/-- Index `t - 1` lies in `[b, a)` (R95, C1). -/
def targetDue (b a t : Nat) : Bool := decide (b < t) && decide (t ≤ a)

/-- Record the due targets with the value read before the request, and take them off the pending ones (R95, R110). -/
def Sampler.record (q : Sampler) (machine : State) (b a : Nat) (v : Word) : Sampler :=
  { machine := machine
    acc := q.acc + ((q.pending.filter (targetDue b a)).map (fun t : Nat => (t : Int) * signed32 v)).sum
    pending := q.pending.filter (fun t => !targetDue b a t) }

/-- One round of the loop (R95): read `reg` and `cycle`, step, record what fell due. -/
def Sampler.advance (q : Sampler) : Sampler :=
  match step q.machine with
  | .next m => q.record m q.machine.cycle.toNat m.cycle.toNat q.machine.reg
  | .fault _ => q
  | .refused _ => q

/-- One round driven by a tick (R103): the cycle the tick executes is the one with index `now`. -/
def Sampler.advanceTick (q : Sampler) : Sampler :=
  match tick q.machine with
  | .next m => q.record m q.machine.now.toNat (q.machine.now.toNat + 1) q.machine.reg
  | .fault _ => q
  | .refused _ => q

/-- The loop's condition: targets pending and the machine not halted (R93, R95). -/
def Sampler.goesOn (q : Sampler) : Bool := !q.pending.isEmpty && decide (q.machine.status ≠ some .halted)

/-- At most `fuel` rounds of the loop. -/
def Sampler.loop (round : Sampler → Sampler) : Nat → Sampler → Sampler
  | 0, q => q
  | fuel + 1, q => if q.goesOn then Sampler.loop round fuel (round q) else q

/-- `Sample(Program, TARGETS)` (R95): a run has N steps (R66). -/
def sample (p : Memory) (targets : List Nat) : Int :=
  (Sampler.loop Sampler.advance p.length (Sampler.start p targets)).acc

/-- The Sampler driving ticks (R103): a run has T ticks. -/
def sampleByTicks (p : Memory) (targets : List Nat) : Int :=
  (Sampler.loop Sampler.advanceTick (totalCycles p) (Sampler.start p targets)).acc

/-- A consumer's own error under `STRICT_EDGES` (R96, R99, D19). -/
inductive ConsumerError where
  /-- A target lies beyond the run (R96). -/
  | targetBeyondRun
  /-- The last raster row is partial (R99). -/
  | partialRow
deriving DecidableEq, Repr

/-- The Sampler's result under the parameter `STRICT_EDGES` (R96; log entry 14). -/
def sampleResult (strict : Bool) (p : Memory) (targets : List Nat) : Except ConsumerError Int :=
  if strict && targets.any (fun t => decide (totalCycles p < t)) then .error .targetBeyondRun
  else .ok (sample p targets)

end Sys2Proof.Machine
end

