-- ==== Sys2Proof/Machine/Renderer.lean ====
section
/-! DEFINITION. The Raster Renderer (60_exceptions.md R93, R97 to R99, R103): its contract over the timeline, and the two
ways it drives a machine of its own. -/

namespace Sys2Proof.Machine

/-- A character of the image (R97). -/
inductive Pixel where
  | lit
  | dark
deriving DecidableEq, Repr

/-- The pixel rule (R98): column `c mod W`, an integer comparison without wrap. -/
def pixelAt (c : Nat) (v : Word) : Pixel :=
  if ((c % Config.rasterWidth : Nat) : Int) - 1 ≤ signed32 v ∧
      signed32 v ≤ ((c % Config.rasterWidth : Nat) : Int) + 1 then .lit else .dark

/-- ceil(n / W), the number of rows of `n` pixels (R99). -/
def rowCount (n : Nat) : Nat := (n + Config.rasterWidth - 1) / Config.rasterWidth

/-- The pixels cut into rows: row `r` holds the pixels `c` with `c div W = r`, the last possibly shorter (R99). -/
def rows (pixels : List Pixel) : List (List Pixel) :=
  (List.range (rowCount pixels.length)).map
    (fun r => (pixels.drop (r * Config.rasterWidth)).take Config.rasterWidth)

/-- The contract (R97, R98): one pixel for each cycle index of the timeline, in rows. -/
def raster (p : Memory) : List (List Pixel) := rows ((timeline p).mapIdx pixelAt)

/-- The Renderer, the machine it owns and the pixels it has decided (R93). -/
structure Renderer where
  machine : State
  pixels : List Pixel
deriving DecidableEq, Repr

/-- A fresh machine on the Program, no pixel decided yet (R93). -/
def Renderer.start (p : Memory) : Renderer := { machine := State.install p, pixels := [] }

/-- One round (R98, R110): the value read before the step decides the pixels of the cycles the step occupies. -/
def Renderer.advance (q : Renderer) : Renderer :=
  match step q.machine with
  | .next m =>
    { machine := m
      pixels := q.pixels ++ (List.range' q.machine.cycle.toNat (m.cycle.toNat - q.machine.cycle.toNat)).map
        (fun c => pixelAt c q.machine.reg) }
  | .fault _ => q
  | .refused _ => q

/-- One round driven by a tick (R103): pixel `now` from `reg`. -/
def Renderer.advanceTick (q : Renderer) : Renderer :=
  match tick q.machine with
  | .next m => { machine := m, pixels := q.pixels ++ [pixelAt q.machine.now.toNat q.machine.reg] }
  | .fault _ => q
  | .refused _ => q

/-- At most `fuel` rounds, until the machine halts (R93). -/
def Renderer.loop (round : Renderer → Renderer) : Nat → Renderer → Renderer
  | 0, q => q
  | fuel + 1, q =>
    if q.machine.status = some .halted then q else Renderer.loop round fuel (round q)

/-- The image made by stepping the machine to its halt: N rounds (R66). -/
def render (p : Memory) : List (List Pixel) :=
  rows (Renderer.loop Renderer.advance p.length (Renderer.start p)).pixels

/-- The image made by ticking the machine to its halt: T rounds (R103). -/
def renderByTicks (p : Memory) : List (List Pixel) :=
  rows (Renderer.loop Renderer.advanceTick (totalCycles p) (Renderer.start p)).pixels

/-- `#` or `.` (R99). -/
def pixelByte : Pixel → Byte
  | .lit => 0x23#8
  | .dark => 0x2E#8

/-- The printed image: rows separated by LF, none after the last (R99, D16). -/
def imageText (image : List (List Pixel)) : List Byte :=
  [lf].intercalate (image.map (fun row => row.map pixelByte))

/-- The Renderer's result under the parameter `STRICT_EDGES` (R99; log entry 14). -/
def renderResult (strict : Bool) (p : Memory) : Except ConsumerError (List (List Pixel)) :=
  if strict && decide (totalCycles p % Config.rasterWidth ≠ 0) then .error .partialRow
  else .ok (render p)

end Sys2Proof.Machine
end

