-- ==== Sys2Proof/Machine/Port.lean ====
section
/-! DEFINITION. The block's interface (40_step_and_retire.md R69, 70_reset_and_hazards.md R106): one request at a time, each
complete before the next (R33). -/

namespace Sys2Proof.Machine

/-- The inputs of R69. -/
inductive Request where
  /-- `load`, the text form. -/
  | loadText (text : List Byte)
  /-- `load`, the binary form. -/
  | loadWords (words : List InstrWord)
  /-- `rst`. -/
  | rst
  /-- `step_req`. -/
  | stepReq
  /-- `tick_req`. -/
  | tickReq
deriving DecidableEq, Repr

/-- What the caller is told (R83, R84, R89, R106). -/
inductive Reply where
  | done
  /-- InvalidStateError (R84). -/
  | invalidStateError
  /-- DecodeError, unmodified, with its line (R83). It stands for code 1 (Reply.code; log entry 20). -/
  | decodeError (e : DecodeError)
  /-- The request is refused (R106; log entry 6). -/
  | refused (r : Refusal)
deriving DecidableEq, Repr

/-- The error kind a reply reports, if it reports one (R82). A refused request is none: "No other condition is an error". -/
def Reply.error : Reply → Option ErrorKind
  | .done => none
  | .invalidStateError => some .invalidStateError
  | .decodeError _ => some .decodeError
  | .refused _ => none

/-- The error code a reply reports, 0 for no error (R82). That the load port reports DecodeError's code 1 here, to the caller,
and on no signal is the model's choice (DESIGN CHOICE, log entry 20): R22 has the load port report it, and R69 gives that
port no signal for a number. -/
def Reply.code (reply : Reply) : BitVec 2 :=
  match reply.error with
  | none => 0#2
  | some kind => kind.code

/-- The end of a load (R83, R106): install and reset, or no Program. A program longer than R5 allows is refused and changes
nothing (log entry 6). -/
def State.finishLoad (s : State) (verdict : Except DecodeError Memory) : State × Reply :=
  match verdict with
  | .error e => (State.reject e, .decodeError e)
  | .ok p =>
    if p.length ≤ Config.maxProgramLength then (State.install p, .done) else (s, .refused .programTooLong)

/-- The end of a step or tick request: the state it leaves and what the caller is told (R86). -/
def State.finishRun (s : State) (outcome : Host.Outcome State Fault Refusal) : State × Reply :=
  match outcome with
  | .next t => (t, .done)
  | .fault (.invalidStateError t) => (t, .invalidStateError)
  | .refused r => (s, .refused r)

/-- One request to the block (R69, R106). -/
def serve (request : Request) (s : State) : State × Reply :=
  match request with
  | .loadText text => s.finishLoad (loadText text)
  | .loadWords words => s.finishLoad (loadWords words)
  | .rst => (s.rst, .done)
  | .stepReq => s.finishRun (step s)
  | .tickReq => s.finishRun (tick s)

end Sys2Proof.Machine
end

