-- ==== Sys2Proof/Safety.lean ====
section
/-! DEFINITION. What claims mean by a run and by a safe one: the invariant of every state the block can reach, and the
successful end of a run (40_step_and_retire.md R66). -/

namespace Sys2Proof.Machine

/-- The invariant of a machine on the Program `p` (R14, R16, R22, R23, R24): the counters and the register are those of the
instructions retired so far, `phase` counts cycles of the instruction at the pc, and the error output is 0 or, on a halted
machine, the record of InvalidStateError. -/
structure RunInv (p : Memory) (s : State) : Prop where
  storeForm : p.wf = true
  pcInRange : s.pc.toNat ≤ p.length
  cycleIsSum : s.cycle.toNat = cycleAfter p s.pc.toNat
  regIsSum : s.reg = regAfter p s.pc.toNat
  phaseInInstr : ∀ i, p[s.pc.toNat]? = some i → s.phase.toNat < cost i
  phaseAtHalt : s.pc.toNat = p.length → s.phase = 0#1
  errorOutput : (s.err = 0#1 ∧ s.errCode = 0#2) ∨ (s.err = 1#1 ∧ s.errCode = 2#2 ∧ s.pc.toNat = p.length)

/-- The invariant of every state the block reaches: with a Program, `RunInv`; with none, the registers are at their reset
values, so that nothing of an earlier run is left (R108; log entry 4). -/
def State.Inv (s : State) : Prop :=
  match s.program with
  | some p => RunInv p s
  | none => s = State.resetOn s.store

/-- A run has ended successfully (R66, D14): Halted, with no error. -/
def State.endsRun (s : State) : Prop := s.status = some .halted ∧ s.err = 0#1

end Sys2Proof.Machine
end

