-- ==== Sys2Proof/Certificates/Slice0/Obligations.lean ====
section
/-! DEFINITION. The statements for the provers. Each docstring names the rule it formalises. -/

open Sys2Proof Sys2Proof.Machine

/-! ## The instructions -/

/-- R57: the cost of each instruction, the same for every operand, and MAX_COST. -/
def Obligations.CostOfEachInstruction : Prop :=
  cost .noop = 1 ∧ (∀ d, cost (.addx d) = 2) ∧ Config.maxCost = 2

/-- R58: the effect is total; NoOp leaves the register, AddX adds, wrapping modulo 2^32 outside the range. -/
def Obligations.EffectAddsAndWraps : Prop :=
  (∀ v, effect .noop v = v) ∧
  (∀ d v, -(2 ^ 31) ≤ signed32 (effect (.addx d) v) ∧ signed32 (effect (.addx d) v) ≤ 2 ^ 31 - 1 ∧
    (signed32 (effect (.addx d) v) - (signed32 v + d)) % 2 ^ 32 = 0) ∧
  (∀ d v, -(2 ^ 31) ≤ signed32 v + d → signed32 v + d ≤ 2 ^ 31 - 1 →
    signed32 (effect (.addx d) v) = signed32 v + d)

/-- The result and the frame of each instruction at `exec` (R60, R77, R78; that `phase` ends at 0 is R71 and R76, and for a
NoOp from phase 1, which no run reaches, log entry 8): the fields not written here, the program store and the error output
among them, are unchanged. -/
def Obligations.ExecResultAndFrame : Prop :=
  (∀ s, exec .noop s = .next { s with cycle := s.cycle + 1#64, pc := s.pc + 1#32, phase := 0#1 }) ∧
  (∀ d s, exec (.addx d) s = .next
    { s with cycle := s.cycle + 2#64, reg := s.reg + BitVec.ofInt 32 d, pc := s.pc + 1#32, phase := 0#1 })

/-- The frame in the form a caller reads it (R12, R18, R20): whichever instruction runs, the program store, every entry a
fetch can read, and the error output are as before, and NoOp leaves the register. -/
def Obligations.ExecFrame : Prop :=
  ∀ i s t, exec i s = .next t →
    t.store = s.store ∧ t.err = s.err ∧ t.errCode = s.errCode ∧ (i = .noop → t.reg = s.reg) ∧
    (∀ p q (k : Nat), s.program = some p → t.program = some q → q[k]? = p[k]?)

/-- R77, whole: `noop`. -/
def Obligations.NoopRule : Prop :=
  decodeLine noopBytes = .ok .noop ∧ decodeWord 0x000000000#33 = .ok .noop ∧ encode .noop = 0x000000000#33 ∧
  rowOf .noop = noopRow ∧ rowMatches noopRow 0x000000000#33 = true ∧
  (∀ (s : State) (p : Memory), s.program = some p → p[s.pc.toNat]? = some .noop → s.phase = 0#1 →
    step s = .next { s with cycle := s.cycle + 1#64, pc := s.pc + 1#32 } ∧ tick s = step s ∧
    (∀ t, step s = .next t → p.wf = true → p.length = s.pc.toNat + 1 → t.status = some .halted)) ∧
  (∀ (p : Memory) (k : Nat), p[k]? = some .noop →
    val p (cycleAfter p k) = some (regAfter p k) ∧ regAfter p (k + 1) = regAfter p k) ∧
  (∃ c, decodeLine (noopBytes ++ [space, 0x30#8]) = .error c) ∧
  (∃ t, step (State.install [.noop]) = .next t ∧ t.reg = 1#32 ∧ t.cycle = 1#64 ∧ t.pc = 1#32 ∧
    t.status = some .halted) ∧
  val [.noop] 0 = some 1#32

/-- R78, whole: `addx d`. The value first seen at index b + 2 is that of the next instruction's first cycle. -/
def Obligations.AddxRule : Prop :=
  (∀ d, (Instr.addx d).wf = true → decodeLine (addxBytes ++ space :: printInt d) = .ok (.addx d)) ∧
  (∀ d, (Instr.addx d).wf = false → ∃ c, decodeLine (addxBytes ++ space :: printInt d) = .error c) ∧
  (∃ c, decodeLine addxBytes = .error c) ∧
  (∀ a b, (∃ t, tokens a = [t]) → (∃ t, tokens b = [t]) →
    ∃ c, decodeLine (addxBytes ++ space :: (a ++ space :: b)) = .error c) ∧
  (∀ d, ((encode (.addx d)).toNat : Int) = 2 ^ 32 + d % 2 ^ 32) ∧
  (∀ d, (Instr.addx d).wf = true → decodeWord (encode (.addx d)) = .ok (.addx d)) ∧
  (∀ d, rowOf (.addx d) = addxRow ∧ rowMatches addxRow (encode (.addx d)) = true) ∧
  (∀ (s : State) (p : Memory) d, s.program = some p → p[s.pc.toNat]? = some (.addx d) → s.phase = 0#1 →
    step s = .next { s with cycle := s.cycle + 2#64, reg := wrap32 (signed32 s.reg + d), pc := s.pc + 1#32 } ∧
    tick s = .next { s with phase := 1#1 }) ∧
  (∀ (s : State) (p : Memory) d, s.program = some p → p[s.pc.toNat]? = some (.addx d) → s.phase = 1#1 →
    tick s = .next
      { s with cycle := s.cycle + 2#64, reg := wrap32 (signed32 s.reg + d), pc := s.pc + 1#32, phase := 0#1 }) ∧
  (∀ (p : Memory) (k : Nat) d, p[k]? = some (.addx d) →
    val p (cycleAfter p k) = some (regAfter p k) ∧ val p (cycleAfter p k + 1) = some (regAfter p k) ∧
    regAfter p (k + 1) = wrap32 (signed32 (regAfter p k) + d) ∧
    (k + 1 < p.length → val p (cycleAfter p k + 2) = some (regAfter p (k + 1)))) ∧
  (∀ (p : Memory) (k : Nat) d e, p[k]? = some (.addx d) → p[k + 1]? = some (.addx e) →
    val p (cycleAfter p (k + 1)) = some (wrap32 (signed32 (regAfter p k) + d)) ∧
    val p (cycleAfter p (k + 1) + 1) = some (wrap32 (signed32 (regAfter p k) + d))) ∧
  (∀ v : Word, wrap32 (signed32 v + 0) = v) ∧
  signed32 (wrap32 (signed32 0x7FFFFFFF#32 + 1)) = -(2 ^ 31) ∧
  (∃ t, step (State.install [.addx 3]) = .next t ∧ t.reg = 4#32 ∧ t.cycle = 2#64 ∧ t.pc = 1#32 ∧
    t.status = some .halted) ∧
  val [.addx 3] 0 = some 1#32 ∧ val [.addx 3] 1 = some 1#32

/-- R85: every instruction completes in every state, and the only execution-time error is a step (or tick) on a machine
whose pc is at no instruction. -/
def Obligations.EveryInstructionCompletes : Prop :=
  (∀ i s, ∃ t, exec i s = .next t) ∧
  (∀ (s : State) (p : Memory), s.program = some p → s.pc.toNat < p.length → (∃ t, step s = .next t) ∧ (∃ t, tick s = .next t)) ∧
  (∀ s r, step s = .fault r → ∃ p, s.program = some p ∧ p.length ≤ s.pc.toNat) ∧
  (∀ s r, tick s = .fault r → ∃ p, s.program = some p ∧ p.length ≤ s.pc.toNat)

/-! ## The step and the tick -/

/-- R27: the fetch reads `Program[pc]`, never fails below N and is not attempted at N. -/
def Obligations.FetchReadsTheEntry : Prop :=
  (∀ (s : State) (p : Memory) (h : s.pc.toNat < p.length), s.program = some p → fetch s = .next p[s.pc.toNat]) ∧
  (∀ (s : State) (p : Memory) i, s.program = some p → s.pc.toNat = p.length → fetch s ≠ .next i)

/-- R59, R75, R84: a step or a tick at `pc == N` raises InvalidStateError and changes nothing but the error output; below N
a step is allowed. -/
def Obligations.HaltedMachineRaisesInvalidState : Prop :=
  (∀ (s : State) (p : Memory), s.program = some p → s.pc.toNat = p.length →
    step s = .fault (.invalidStateError { s with err := 1#1, errCode := 2#2 }) ∧
    tick s = .fault (.invalidStateError { s with err := 1#1, errCode := 2#2 }) ∧
    serve .stepReq s = ({ s with err := 1#1, errCode := 2#2 }, .invalidStateError) ∧
    serve .tickReq s = ({ s with err := 1#1, errCode := 2#2 }, .invalidStateError)) ∧
  (∀ (s : State) (p : Memory), s.program = some p → s.pc.toNat < p.length → ∃ t, step s = .next t ∧ serve .stepReq s = (t, .done))

/-- R60: one step from an instruction boundary. -/
def Obligations.StepAdvancesOneInstruction : Prop :=
  (∀ (s : State) (p : Memory) i, s.program = some p → p[s.pc.toNat]? = some i → s.phase = 0#1 →
    step s = .next
      { s with cycle := s.cycle + BitVec.ofNat 64 (cost i), reg := effect i s.reg, pc := s.pc + 1#32 }) ∧
  (∀ (s : State) (p : Memory), s.program = some p → s.pc.toNat = p.length → ∃ t, step s = .fault (.invalidStateError t))

/-- A step runs the decoded instruction: on a program loaded from words, or from text, the step is `exec` of what the
decoder reads from the word, or the line, at the pc (R26, R48, R60). -/
def Obligations.StepRunsTheDecodedInstruction : Prop :=
  (∀ words p s w, loadWords words = .ok p → s.program = some p → words[s.pc.toNat]? = some w →
    ∃ i, decodeWord w = .ok i ∧ i.wf = true ∧ step s = exec i s) ∧
  (∀ text p s line, loadText text = .ok p → s.program = some p → (splitLines text)[s.pc.toNat]? = some line →
    ∃ i, decodeLine line = .ok i ∧ i.wf = true ∧ step s = exec i s)

/-- R71: one tick. -/
def Obligations.TickExecutesOneCycle : Prop :=
  (∀ (s : State) (p : Memory) i, s.program = some p → p[s.pc.toNat]? = some i → s.phase.toNat < cost i →
    (s.phase.toNat + 1 = cost i → tick s = .next
      { s with cycle := s.cycle + BitVec.ofNat 64 (cost i), reg := effect i s.reg, pc := s.pc + 1#32, phase := 0#1 }) ∧
    (s.phase.toNat + 1 ≠ cost i → tick s = .next { s with phase := s.phase + 1#1 })) ∧
  (∀ (s : State) (p : Memory), s.program = some p → s.pc.toNat = p.length → ∃ t, tick s = .fault (.invalidStateError t)) ∧
  (∀ (s : State) (p : Memory), s.program = some p → p[s.pc.toNat]? = some .noop → s.phase = 0#1 → ∃ t, tick s = .next t ∧ t.pc = s.pc + 1#32) ∧
  (∀ (s : State) (p : Memory) d, s.program = some p → p[s.pc.toNat]? = some (.addx d) → s.phase = 0#1 →
    tick s = .next { s with phase := 1#1 } ∧
    (∃ t, ticks 2 s = .next t ∧ t.pc = s.pc + 1#32 ∧ t.reg = wrap32 (signed32 s.reg + d)))

/-- R76: the tick-level `Step()`, tick until the instruction retires, is the step from phase 0; from phase 1 it completes
the AddX in flight with one tick, and that is what a step does there. -/
def Obligations.TickLevelStepIsTheStep : Prop :=
  (∀ s, s.phase = 0#1 → tickStep s = step s) ∧
  (∀ (s : State) (p : Memory) d, s.program = some p → p[s.pc.toNat]? = some (.addx d) → s.phase = 1#1 →
    tickStep s = tick s ∧ step s = tick s ∧ ∃ t, tick s = .next t ∧ t.pc = s.pc + 1#32 ∧ t.phase = 0#1) ∧
  (∀ (s : State) (p : Memory), s.program = some p → s.pc.toNat = p.length →
    ∃ t, tickStep s = .fault (.invalidStateError t))

/-- R74: cost-many ticks are one step, the states between differ in `phase` only, and every state the steps of a run reach
is reached by its ticks. -/
def Obligations.TicksRefineTheStep : Prop :=
  (∀ (s : State) (p : Memory) i, s.program = some p → p[s.pc.toNat]? = some i → s.phase = 0#1 →
    ticks (cost i) s = step s ∧ (∃ t, step s = .next t ∧ t.phase = 0#1) ∧
    (∀ n t, 0 < n → n < cost i → ticks n s = .next t → t = { s with phase := 1#1 })) ∧
  (∀ p k, p.wf = true → k ≤ p.length →
    ticks (cycleAfter p k) (State.install p) = steps k (State.install p)) ∧
  (∀ (s : State) (p : Memory), s.program = some p → s.pc.toNat < p.length → s.phase = 0#1 →
    ({ s with phase := 1#1 } : State).outputs =
      s.outputs.map fun o =>
        { o with phaseOut := 1#1, nowOut := s.cycle + 1#64, status := Status.running.code })

/-! ## Counters, status, error output -/

/-- R14: `cycle` moves only at a retire, by exactly the cost, strictly up, and never overflows. -/
def Obligations.CycleCountsCosts : Prop :=
  ∀ p s, RunInv p s → s.program = some p →
    (∀ t, step s = .next t → ∃ i, p[s.pc.toNat]? = some i ∧ t.cycle.toNat = s.cycle.toNat + cost i ∧
      s.cycle.toNat < t.cycle.toNat) ∧
    (∀ t, tick s = .next t →
      (t.pc = s.pc ∧ t.cycle = s.cycle ∧ t.phase = 1#1) ∨
      (t.pc = s.pc + 1#32 ∧ ∃ i, p[s.pc.toNat]? = some i ∧ t.cycle.toNat = s.cycle.toNat + cost i)) ∧
    (∀ t, step s = .fault (.invalidStateError t) → t.cycle = s.cycle) ∧
    (∀ t, tick s = .fault (.invalidStateError t) → t.cycle = s.cycle) ∧
    s.cycle.toNat ≤ 2 ^ 33 - 2

/-- R16, R17: `pc` is 0 after reset, counts up by exactly 1 at a retire and only there, stays in 0 .. N and never wraps. -/
def Obligations.PcCountsInstructions : Prop :=
  (∀ s : State, s.rst.pc = 0#32) ∧
  (∀ p s, RunInv p s → s.program = some p →
    s.pc.toNat ≤ p.length ∧
    (∀ t, step s = .next t → t.pc.toNat = s.pc.toNat + 1 ∧ t.pc.toNat ≤ p.length) ∧
    (∀ t, tick s = .next t → (t.pc = s.pc ∧ t.phase = 1#1) ∨ (t.pc.toNat = s.pc.toNat + 1 ∧ t.pc.toNat ≤ p.length)) ∧
    (s.pc.toNat = p.length → ∀ t, step s ≠ .next t))

/-- R12: only the retire of an AddX changes the register. -/
def Obligations.OnlyAddxRetireWritesReg : Prop :=
  (∀ s t, step s = .next t → t.reg ≠ s.reg →
    ∃ p d, s.program = some p ∧ p[s.pc.toNat]? = some (.addx d) ∧ t.pc = s.pc + 1#32) ∧
  (∀ s t, tick s = .next t → t.reg ≠ s.reg →
    ∃ p d, s.program = some p ∧ p[s.pc.toNat]? = some (.addx d) ∧ s.phase = 1#1 ∧ t.pc = s.pc + 1#32)

/-- R19: the status formula, its precedence, its encoding, and its agreement with the source's test on `cycle`. -/
def Obligations.StatusFormula : Prop :=
  (∀ (s : State) (p : Memory), s.program = some p →
    (s.pc.toNat = p.length → s.status = some .halted) ∧
    (s.pc.toNat ≠ p.length → s.pc = 0#32 → s.phase = 0#1 → s.status = some .notStarted) ∧
    (s.pc.toNat ≠ p.length → (s.pc ≠ 0#32 ∨ s.phase ≠ 0#1) → s.status = some .running)) ∧
  (State.install []).status = some .halted ∧
  Status.notStarted.code = 0#2 ∧ Status.running.code = 1#2 ∧ Status.halted.code = 2#2 ∧
  (∀ st : Status, st.code ≠ 3#2) ∧
  (∀ p s, RunInv p s → s.phase = 0#1 → (s.pc = 0#32 ↔ s.cycle = 0#64))

/-- R68: the status moves only forward under steps, and only a reset (or a load) leaves Halted. -/
def Obligations.StatusMovesForward : Prop :=
  (∀ p s t, RunInv p s → s.program = some p → step s = .next t →
    (s.status = some .notStarted ∨ s.status = some .running) ∧
    t.status = some (if s.pc.toNat + 1 < p.length then .running else .halted)) ∧
  (∀ (s : State) (p : Memory), s.program = some p → s.status = some .halted → (serve .stepReq s).2 = .invalidStateError ∧
    (serve .stepReq s).1.status = some .halted) ∧
  (∀ r (s : State), s.Inv → s.status ≠ some .notStarted → (serve r s).1.status = some .notStarted →
    r = .rst ∨ (∃ text, r = .loadText text) ∨ (∃ words, r = .loadWords words))

/-- The error output (R22): it is written by InvalidStateError alone, as 1 and 2, is sticky, and goes back to 0 only by a
reset. R22 speaks of a constructed machine. That a failed load, which leaves no machine, leaves `err` and `err_code` at 0
(the last two clauses, and the case `program = none` of the clauses before them) is the model's choice, log
entry 4. That such a load is accepted in every state is its reading, log entry 17. -/
def Obligations.ErrorOutputIsSticky : Prop :=
  (∀ s : State, s.rst.err = 0#1 ∧ s.rst.errCode = 0#2) ∧
  (∀ (s : State) (p : Memory), s.program = some p → s.pc.toNat = p.length →
    serve .stepReq s = ({ s with err := 1#1, errCode := 2#2 }, .invalidStateError) ∧
    serve .tickReq s = ({ s with err := 1#1, errCode := 2#2 }, .invalidStateError)) ∧
  (∀ r (s : State), s.err = 1#1 → (serve r s).1.err = 0#1 →
    (serve r s).1 = s.rst ∨ (∃ p, (serve r s).1 = State.install p) ∨ (serve r s).1.program = none) ∧
  (∀ r (s : State), s.err = 0#1 → (serve r s).1.err = 1#1 → (serve r s).2 = .invalidStateError) ∧
  (∀ r (s : State), s.Inv → (serve r s).1.errCode ≠ 1#2 ∧ (serve r s).1.errCode ≠ 3#2) ∧
  (∀ (s : State) text e, loadText text = .error e →
    (serve (.loadText text) s).1.err = 0#1 ∧ (serve (.loadText text) s).1.errCode = 0#2) ∧
  (∀ (s : State) words e, loadWords words = .error e →
    (serve (.loadWords words) s).1.err = 0#1 ∧ (serve (.loadWords words) s).1.errCode = 0#2)

/-- R69: the outputs of a machine are projections of the state; `now` is cycle + phase without overflow in a run. The load
port's two outputs have a statement of their own, LoadPortOutputs. -/
def Obligations.OutputsAreProjections : Prop :=
  (∀ (s : State) (p : Memory), s.program = some p → ∃ o, s.outputs = some o ∧
    o.regOut = s.reg ∧ o.cycleOut = s.cycle ∧ o.pcOut = s.pc ∧ o.phaseOut = s.phase ∧
    o.nowOut = s.cycle + s.phase.zeroExtend 64 ∧ some o.status = s.status.map Status.code ∧
    o.err = s.err ∧ o.errCode = s.errCode) ∧
  (∀ p s, RunInv p s → s.now.toNat = s.cycle.toNat + s.phase.toNat)

/-! ## Reset, load, program store -/

/-- R104 (with R13, R15): Reset() on the loaded Program, which is not changed; State.reset holds the same values. -/
def Obligations.ResetValues : Prop :=
  (∀ (s : State) (p : Memory), s.program = some p → serve .rst s = (s.rst, .done) ∧ s.rst.program = some p ∧
    s.rst.reg = 1#32 ∧ s.rst.cycle = 0#64 ∧ s.rst.pc = 0#32 ∧ s.rst.phase = 0#1 ∧ s.rst.err = 0#1 ∧
    s.rst.errCode = 0#2) ∧
  State.reset.reg = 1#32 ∧ State.reset.cycle = 0#64 ∧ State.reset.pc = 0#32 ∧ State.reset.phase = 0#1 ∧
  State.reset.err = 0#1 ∧ State.reset.errCode = 0#2

/-- A load that succeeds installs and resets; one that fails leaves no Program, and until a load succeeds every step and tick
request is refused; rst is a fresh machine on the same Program (R106). Two readings are the model's: a load is accepted
between any two requests, so in every state and with the status Running too (log entry 17), and a step or tick before any
load is refused as after a failed one (log entry 1). -/
def Obligations.LoadInstallsOrLeavesNoProgram : Prop :=
  (∀ s text p, loadText text = .ok p → p.length ≤ Config.maxProgramLength →
    serve (.loadText text) s = (State.resetOn (.loaded p), .done)) ∧
  (∀ s words p, loadWords words = .ok p → p.length ≤ Config.maxProgramLength →
    serve (.loadWords words) s = (State.resetOn (.loaded p), .done)) ∧
  (∀ s text e, loadText text = .error e → ∃ t, serve (.loadText text) s = (t, .decodeError e) ∧ t.program = none) ∧
  (∀ s words e, loadWords words = .error e →
    ∃ t, serve (.loadWords words) s = (t, .decodeError e) ∧ t.program = none) ∧
  (∀ s : State, s.program = none →
    serve .stepReq s = (s, .refused .noProgram) ∧ serve .tickReq s = (s, .refused .noProgram)) ∧
  (∀ (s : State) (p : Memory), s.program = some p → serve .rst s = (State.install p, .done))

/-- The load port's outputs (R69, R83): after a load that failed, `decode_err` is 1 and `decode_line` is the number of the
first line that does not decode, or the index of the first reserved word + 1, in 32 bits; after one that succeeded
`decode_err` is 0. The model's choices: both show the last load's verdict until the next load, `decode_line` is absent where
`decode_err` is 0, a line number is shown modulo 2^32, and before any load `decode_err` is 0 (log entry 11). So is that
rst, with no Program too, leaves them (log entry 5), that a refused load leaves them (log entry 6), and that a load is
accepted in every state (log entry 17). -/
def Obligations.LoadPortOutputs : Prop :=
  (∀ (s : State) text (k : Nat) line c, (splitLines text)[k]? = some line → decodeLine line = .error c →
    (∀ m < k, ∀ l, (splitLines text)[m]? = some l → ∃ i, decodeLine l = .ok i) →
    (serve (.loadText text) s).1.decodeErr = 1#1 ∧
    (serve (.loadText text) s).1.decodeLine = some (BitVec.ofNat 32 (k + 1))) ∧
  (∀ (s : State) (words : List InstrWord) (k : Nat) w c, words[k]? = some w → decodeWord w = .error c →
    (∀ m < k, ∀ v, words[m]? = some v → ∃ i, decodeWord v = .ok i) →
    (serve (.loadWords words) s).1.decodeErr = 1#1 ∧
    (serve (.loadWords words) s).1.decodeLine = some (BitVec.ofNat 32 (k + 1))) ∧
  (∀ (s : State) text p, loadText text = .ok p → p.length ≤ Config.maxProgramLength →
    (serve (.loadText text) s).1.decodeErr = 0#1 ∧ (serve (.loadText text) s).1.decodeLine = none) ∧
  (∀ (s : State) words p, loadWords words = .ok p → p.length ≤ Config.maxProgramLength →
    (serve (.loadWords words) s).1.decodeErr = 0#1 ∧ (serve (.loadWords words) s).1.decodeLine = none) ∧
  (∀ r s, (r = .rst ∨ r = .stepReq ∨ r = .tickReq ∨ ∃ e, (serve r s).2 = .refused e) →
    (serve r s).1.decodeErr = s.decodeErr ∧ (serve r s).1.decodeLine = s.decodeLine) ∧
  (∀ s : State, s.decodeErr = 0#1 ↔ s.decodeLine = none) ∧
  State.reset.decodeErr = 0#1

/-- The two error kinds and their codes (R82), and which request reports which: DecodeError exactly a load of a text or of
words that do not decode (R83), InvalidStateError exactly a step or a tick on a Halted machine (R84), any other reply code
0. That DecodeError's code 1 is reported in the load's reply, beside `decode_err` = 1, is the model's choice (log entry 20),
and that a load is accepted in every state is its reading (log entry 17). -/
def Obligations.ErrorKindsAndCodes : Prop :=
  ErrorKind.decodeError.code = 1#2 ∧ ErrorKind.invalidStateError.code = 2#2 ∧
  (∀ kind : ErrorKind, kind = .decodeError ∨ kind = .invalidStateError) ∧
  (∀ r s, (serve r s).2.error = some .decodeError ↔
    (∃ text e, r = .loadText text ∧ loadText text = .error e) ∨
    (∃ words e, r = .loadWords words ∧ loadWords words = .error e)) ∧
  (∀ r (s : State), s.Inv → ((serve r s).2.error = some .invalidStateError ↔
    (r = .stepReq ∨ r = .tickReq) ∧ s.status = some .halted)) ∧
  (∀ r s, (serve r s).2.error = some .decodeError → (serve r s).2.code = 1#2 ∧ (serve r s).1.decodeErr = 1#1) ∧
  (∀ r s, (serve r s).2.error = some .invalidStateError → (serve r s).2.code = 2#2 ∧ (serve r s).1.errCode = 2#2) ∧
  (∀ r s, (serve r s).2.error = none → (serve r s).2.code = 0#2)

/-- R36: nothing but a load changes the Program. -/
def Obligations.OnlyLoadChangesTheProgram : Prop :=
  (∀ r s, (serve r s).1.program ≠ s.program → (∃ text, r = .loadText text) ∨ (∃ words, r = .loadWords words)) ∧
  (∀ s t, step s = .next t → t.store = s.store) ∧ (∀ s t, tick s = .next t → t.store = s.store)

/-! ## The invariant -/

/-- The state after reset meets the invariant. -/
def Obligations.ResetMeetsTheInvariant : Prop :=
  State.reset.Inv ∧ (∀ p : Memory, p.wf = true → (State.install p).Inv)

/-- Every step keeps the invariant, and so does the machine a fault leaves (R14, R16, R22, R23, R24). -/
def Obligations.StepKeepsTheInvariant : Prop :=
  (∀ s t, s.Inv → step s = .next t → t.Inv) ∧
  (∀ s t, s.Inv → step s = .fault (.invalidStateError t) → t.Inv)

/-- Every request to the block keeps the invariant: loads, resets, steps and ticks in any order. -/
def Obligations.EveryRequestKeepsTheInvariant : Prop :=
  ∀ r (s : State), s.Inv → (serve r s).1.Inv

/-! ## Runs -/

/-- R24: the state after exactly k steps from reset. -/
def Obligations.StateAfterKSteps : Prop :=
  ∀ p k, p.wf = true → k ≤ p.length →
    ∃ t, steps k (State.install p) = .next t ∧
      t.pc.toNat = k ∧
      t.cycle.toNat = ((p.take k).map cost).sum ∧
      t.reg = wrap32 (1 + ((p.take k).map delta).sum)

/-- R66: every run ends: exactly N steps are allowed, and after them the machine is Halted with no error. -/
def Obligations.EveryRunTerminates : Prop :=
  ∀ p, p.wf = true →
    (∀ k ≤ p.length, ∃ t, steps k (State.install p) = .next t) ∧
    (∃ t, steps p.length (State.install p) = .next t ∧ t.endsRun ∧
      t.reg = regAfter p p.length ∧ t.cycle.toNat = totalCycles p ∧ t.pc.toNat = p.length) ∧
    (∀ c, c < totalCycles p → ∃ v, val p c = some v) ∧
    (∀ k, p.length < k →
      ∃ t, steps k (State.install p) = .fault (.invalidStateError t) ∧ ¬ t.endsRun)

/-- R62, R63, R64: X_k and C_k, the occupancy intervals, and the timeline's value in each. -/
def Obligations.TimelineShowsTheValueBefore : Prop :=
  (∀ p, regAfter p 0 = 1#32 ∧ cycleAfter p 0 = 0) ∧
  (∀ p k, p.wf = true → k ≤ p.length → ∃ t, steps k (State.install p) = .next t ∧
    t.reg = regAfter p k ∧ t.cycle.toNat = cycleAfter p k) ∧
  (∀ (p : Memory) (k : Nat) i, p[k]? = some i →
    cycleAfter p (k + 1) = cycleAfter p k + cost i ∧ regAfter p (k + 1) = effect i (regAfter p k)) ∧
  (∀ p k c, k < p.length → cycleAfter p k ≤ c → c < cycleAfter p (k + 1) → val p c = some (regAfter p k)) ∧
  (∀ p c, c < totalCycles p →
    ∃ k, (k < p.length ∧ cycleAfter p k ≤ c ∧ c < cycleAfter p (k + 1)) ∧
      ∀ j, j < p.length → cycleAfter p j ≤ c → c < cycleAfter p (j + 1) → j = k)

/-- R65: the total cycle count. -/
def Obligations.TotalCycleCount : Prop :=
  ∀ p : Memory,
    totalCycles p = p.countP (fun i => i == .noop) + 2 * p.countP (fun i => i != .noop) ∧
    p.length ≤ totalCycles p ∧ totalCycles p ≤ 2 * p.length ∧ (totalCycles p = 0 ↔ p.length = 0)

/-- R72: before a tick the register is the timeline's value of the cycle the tick executes, and a consumer that reads it
before each tick sees val(0), val(1), ... in order. -/
def Obligations.RegBeforeTickIsTheTimeline : Prop :=
  (∀ p s, RunInv p s → s.pc.toNat < p.length → val p (s.cycle.toNat + s.phase.toNat) = some s.reg) ∧
  (∀ p n, p.wf = true → n < totalCycles p →
    ∃ t, ticks n (State.install p) = .next t ∧ t.now.toNat = n ∧ val p n = some t.reg)

/-! ## The text form -/

/-- R40: line splitting. -/
def Obligations.LineSplitting : Prop :=
  splitLines [] = [] ∧ loadText [] = .ok [] ∧
  (∀ l rest, lf ∉ l → l.getLast? ≠ some cr → splitLines (l ++ lf :: rest) = l :: splitLines rest) ∧
  (∀ l rest, lf ∉ l → splitLines (l ++ cr :: lf :: rest) = l :: splitLines rest) ∧
  (∀ l, lf ∉ l → l ≠ [] → splitLines l = [l]) ∧
  (∀ text p, loadText text = .ok p → p.length = (splitLines text).length ∧
    ∀ (i : Nat) line, 1 ≤ i → (splitLines text)[i - 1]? = some line →
      ∃ ins, decodeLine line = .ok ins ∧ p[i - 1]? = some ins) ∧
  (∀ text line c, line ∈ splitLines text → decodeLine line = .error c → ∃ e, loadText text = .error e)

/-- R41: tokens are the maximal runs of bytes other than space and tab. -/
def Obligations.Tokenising : Prop :=
  (∀ b : Byte, isBlank b = true ↔ b = 0x20#8 ∨ b = 0x09#8) ∧
  tokens [] = [] ∧
  (∀ b rest, isBlank b = true → tokens (b :: rest) = tokens rest) ∧
  (∀ t : List Byte, t ≠ [] → (∀ b ∈ t, isBlank b = false) → tokens t = [t]) ∧
  (∀ (t : List Byte) b rest, t ≠ [] → (∀ x ∈ t, isBlank x = false) → isBlank b = true →
    tokens (t ++ b :: rest) = t :: tokens rest) ∧
  (∀ a b, tokens a = tokens b → decodeLine a = decodeLine b) ∧
  (∀ line m operands, tokens line = m :: operands → m ≠ noopBytes → m ≠ addxBytes → ∃ c, decodeLine line = .error c)

/-- R43, R44, R45, R46, R47, R56: exactly which lines decode, and to what; every other line is a DecodeError. -/
def Obligations.LineVerdicts : Prop :=
  noopBytes = [0x6E#8, 0x6F#8, 0x6F#8, 0x70#8] ∧ addxBytes = [0x61#8, 0x64#8, 0x64#8, 0x78#8] ∧
  (∀ b : Byte, isDigit b = true ↔ 0x30 ≤ b.toNat ∧ b.toNat ≤ 0x39) ∧
  digitsValue [] = 0 ∧ (∀ ds b, digitsValue (ds ++ [b]) = 10 * digitsValue ds + (b.toNat - 0x30)) ∧
  (∀ line, decodeLine line = .ok .noop ↔ tokens line = [noopBytes]) ∧
  (∀ line d, decodeLine line = .ok (.addx d) ↔
    ∃ ds : List Byte, ds ≠ [] ∧ (∀ b ∈ ds, isDigit b = true) ∧ -(2 ^ 31) ≤ d ∧ d ≤ 2 ^ 31 - 1 ∧
      ((tokens line = [addxBytes, ds] ∧ d = digitsValue ds) ∨
       (tokens line = [addxBytes, 0x2D#8 :: ds] ∧ d = -(digitsValue ds : Int))))

/-- R48: a text decodes whole, line by line, or its first failing line, in file order, is the error. -/
def Obligations.FirstFailingLineIsReported : Prop :=
  (∀ text p, loadText text = .ok p ↔
    p.length = (splitLines text).length ∧
    ∀ (k : Nat) line, (splitLines text)[k]? = some line → ∃ i, decodeLine line = .ok i ∧ p[k]? = some i) ∧
  (∀ text e, loadText text = .error e ↔
    ∃ (k : Nat) (line : List Byte) (c : DecodeCause), e = ⟨k + 1, .line line⟩ ∧ (splitLines text)[k]? = some line ∧
      decodeLine line = .error c ∧
      ∀ m < k, ∀ l, (splitLines text)[m]? = some l → ∃ i, decodeLine l = .ok i)

/-- R55: the canonical spelling, and that decoding it gives the instruction back. -/
def Obligations.PrintThenDecodeLine : Prop :=
  printInstr .noop = noopBytes ∧
  (∀ d : Int, ∃ ds : List Byte,
    printInstr (.addx d) = addxBytes ++ space :: ((if d < 0 then [minus] else []) ++ ds) ∧
    ds ≠ [] ∧ (∀ b ∈ ds, isDigit b = true) ∧ digitsValue ds = d.natAbs ∧ (ds.head? = some 0x30#8 → ds = [0x30#8])) ∧
  (∀ i : Instr, i.wf = true → decodeLine (printInstr i) = .ok i) ∧
  (∀ line i, decodeLine line = .ok i → decodeLine (printInstr i) = .ok i)

/-- Printing a whole program and loading the text gives the program back (R40, R48, R55). -/
def Obligations.PrintThenLoadProgram : Prop :=
  ∀ p : Memory, p.wf = true → loadText (printProgram p) = .ok p

/-! ## The binary form -/

/-- Words written out from R51 decode to the instruction they stand for, and reserved words are refused (R53). -/
def Obligations.DecodeOfWrittenWords : Prop :=
  decodeWord 0x000000000#33 = .ok .noop ∧ decodeWord 0x100000000#33 = .ok (.addx 0) ∧
  decodeWord 0x100000003#33 = .ok (.addx 3) ∧ decodeWord 0x1FFFFFFFB#33 = .ok (.addx (-5)) ∧
  decodeWord 0x17FFFFFFF#33 = .ok (.addx 2147483647) ∧ decodeWord 0x180000000#33 = .ok (.addx (-2147483648)) ∧
  (∃ c, decodeWord 0x000000001#33 = .error c) ∧ (∃ c, decodeWord 0x0FFFFFFFF#33 = .error c)

/-- R51, R52: the fields of an encoded instruction, and the opcode table's rows. -/
def Obligations.EncodedFields : Prop :=
  opField (encode .noop) = 0#1 ∧ immField (encode .noop) = 0#32 ∧
  (∀ d, opField (encode (.addx d)) = 1#1 ∧ (immField (encode (.addx d))).toNat = (d % 2 ^ 32).toNat ∧
    ((encode (.addx d)).toNat : Int) = 2 ^ 32 + d % 2 ^ 32) ∧
  encode (.addx (-5)) = 0x1FFFFFFFB#33 ∧
  (∀ w d, decodeWord w = .ok (.addx d) → d = signed32 (immField w)) ∧
  (∀ w i, decodeWord w = .ok i → rowMatches (rowOf i) w = true) ∧
  (∀ w, rowMatches noopRow w = true → decodeWord w = .ok .noop) ∧
  (∀ w, rowMatches addxRow w = true → ∃ d, decodeWord w = .ok (.addx d)) ∧
  (∀ w, ¬ (rowMatches noopRow w = true ∧ rowMatches addxRow w = true))

/-- Every word has exactly one verdict, and a reserved word is refused by the load port with its index + 1 (R53), which
installs no Program (R83, R106). That the error record quotes the word is the model's choice (log entry 10), and that the
load is accepted in every state is its reading (log entry 17). -/
def Obligations.EveryWordHasOneVerdict : Prop :=
  (∀ w : InstrWord, ∃ (op : BitVec 1) (imm : BitVec 32), w = op ++ imm) ∧
  (∀ imm : BitVec 32, decodeWord (1#1 ++ imm) = .ok (.addx (signed32 imm))) ∧
  decodeWord (0#1 ++ 0#32) = .ok .noop ∧
  (∀ imm : BitVec 32, imm ≠ 0#32 → ∃ c, decodeWord (0#1 ++ imm) = .error c) ∧
  (∀ (before : List InstrWord) (imm : BitVec 32) (after : List InstrWord) (s : State), imm ≠ 0#32 →
    (∀ w ∈ before, ∃ i, decodeWord w = .ok i) →
    ∃ t, serve (.loadWords (before ++ (0#1 ++ imm) :: after)) s =
        (t, .decodeError ⟨before.length + 1, .word (0#1 ++ imm)⟩) ∧ t.program = none)

/-- Decode and encode agree, both ways: a well-formed instruction comes back from its word with its operand whole, and a
word that decodes is the word of a well-formed instruction (R51, R52, R53). -/
def Obligations.DecodeEncodeRoundTrip : Prop :=
  (∀ i : Instr, i.wf = true → decodeWord (encode i) = .ok i) ∧
  (∀ w i, decodeWord w = .ok i → i.wf = true ∧ encode i = w)

/-! ## The observers -/

/-- The Sampler, stepping a machine of its own, computes the contract's sum (R93, R94, R95). -/
def Obligations.SamplerComputesTheSignal : Prop :=
  ∀ p targets, p.wf = true → Targets.wf targets = true → sample p targets = signal p targets

/-- The contract: t * val(t - 1) over the targets within the run, nothing beyond it, in any order (R94); the edges (R96). How
`STRICT_EDGES` is taken is the model's choice (log entry 14): an observer that is strict answers an error if a target lies
beyond the run, and the default observer's own sum if none does. -/
def Obligations.SignalContractAndEdges : Prop :=
  (∀ p, signal p [] = 0) ∧
  (∀ p t targets v, 1 ≤ t → t ≤ totalCycles p → val p (t - 1) = some v →
    signal p (t :: targets) = (t : Int) * signed32 v + signal p targets) ∧
  (∀ p t, 1 ≤ t → t ≤ totalCycles p → ∃ v, val p (t - 1) = some v) ∧
  (∀ p t targets, totalCycles p < t → signal p (t :: targets) = signal p targets) ∧
  (∀ targets, signal [] targets = 0) ∧
  (∀ p targets targets', targets.Perm targets' → signal p targets = signal p targets') ∧
  Config.exampleTargets = [20, 60, 100, 140, 180, 220] ∧
  Config.strictEdges = false ∧
  (∀ p targets, sampleResult Config.strictEdges p targets = .ok (sample p targets)) ∧
  (∀ p targets t, t ∈ targets → totalCycles p < t → ∃ e, sampleResult true p targets = .error e) ∧
  (∀ p targets, (∀ t ∈ targets, t ≤ totalCycles p) → sampleResult true p targets = .ok (sample p targets))

/-- The Renderer, stepping a machine of its own, draws the contract's image (R93, R98). -/
def Obligations.RendererDrawsTheRaster : Prop :=
  ∀ p, p.wf = true → render p = raster p

/-- The pixel rule, the place of each pixel, the rows and the printed image (R97, R98, R99). How `STRICT_EDGES` is taken is
the model's choice (log entry 14): an observer that is strict answers an error if the last row is partial, and the default
observer's own image if it is whole. -/
def Obligations.RasterShape : Prop :=
  Config.rasterWidth = 40 ∧
  (∀ p c, c < totalCycles p → ∃ row v, (raster p)[c / 40]? = some row ∧ val p c = some v ∧
    row[c % 40]? = some (if ((c % 40 : Nat) : Int) - 1 ≤ signed32 v ∧ signed32 v ≤ ((c % 40 : Nat) : Int) + 1
      then .lit else .dark)) ∧
  (∀ p, (raster p).length = (totalCycles p + 39) / 40) ∧
  (∀ p (r : Nat) row, (raster p)[r]? = some row → r < totalCycles p / 40 → row.length = 40) ∧
  (∀ p row, totalCycles p % 40 ≠ 0 → (raster p)[totalCycles p / 40]? = some row →
    row.length = totalCycles p % 40) ∧
  raster [] = [] ∧
  pixelByte .lit = 0x23#8 ∧ pixelByte .dark = 0x2E#8 ∧
  imageText [] = [] ∧ (∀ row, imageText [row] = row.map pixelByte) ∧
  (∀ row row' rest, imageText (row :: row' :: rest) = row.map pixelByte ++ lf :: imageText (row' :: rest)) ∧
  (∀ p, renderResult Config.strictEdges p = .ok (render p)) ∧
  (∀ p, totalCycles p % 40 ≠ 0 → ∃ e, renderResult true p = .error e) ∧
  (∀ p, totalCycles p % 40 = 0 → renderResult true p = .ok (render p))

/-- R103: driven by ticks, the observers give the same sum and image. -/
def Obligations.TickDrivenObserversAgree : Prop :=
  (∀ p targets, p.wf = true → Targets.wf targets = true → sampleByTicks p targets = signal p targets) ∧
  (∀ p, p.wf = true → renderByTicks p = raster p)
end

