-- ==== Sys2Proof/Laws/Core.lean ====
section
/-! SUPPORT. The host's run of the machine is the model's own `steps`. -/

namespace Sys2Proof.Machine

theorem run_succ_of_next (M : Host.Core) {s t : M.State} (h : M.step s = .next t) (n : Nat) :
    M.run (n + 1) s = M.run n t := by
  rw [Host.Core.run, h]

theorem run_succ_of_fault (M : Host.Core) {s : M.State} {r : M.Fault} (h : M.step s = .fault r) (n : Nat) :
    M.run (n + 1) s = .fault r := by
  rw [Host.Core.run, h]

theorem run_succ_of_refused (M : Host.Core) {s : M.State} {r : M.Refusal} (h : M.step s = .refused r) (n : Nat) :
    M.run (n + 1) s = .refused r := by
  rw [Host.Core.run, h]

theorem core_run_eq_steps (n : Nat) (s : State) : Host.Core.run Sys2Proof.core n s = steps n s := by
  induction n generalizing s with
  | zero => rfl
  | succ n ih =>
    unfold steps
    cases h : step s with
    | next t => exact (run_succ_of_next Sys2Proof.core h n).trans (ih t)
    | fault r => exact run_succ_of_fault Sys2Proof.core h n
    | refused r => exact run_succ_of_refused Sys2Proof.core h n

end Sys2Proof.Machine
end

