-- ==== Sys2Proof/Laws/State.lean ====
section
/-! SUPPORT. One lemma for each field of each update of the state. -/

namespace Sys2Proof.Machine

variable (s : State) (st : Store) (p : Memory) (e : DecodeError) (c : Nat) (v : Word)

@[simp] theorem resetOn_store : (State.resetOn st).store = st := rfl
@[simp] theorem resetOn_reg : (State.resetOn st).reg = 1#32 := rfl
@[simp] theorem resetOn_cycle : (State.resetOn st).cycle = 0#64 := rfl
@[simp] theorem resetOn_pc : (State.resetOn st).pc = 0#32 := rfl
@[simp] theorem resetOn_phase : (State.resetOn st).phase = 0#1 := rfl
@[simp] theorem resetOn_err : (State.resetOn st).err = 0#1 := rfl
@[simp] theorem resetOn_errCode : (State.resetOn st).errCode = 0#2 := rfl

theorem rst_eq_resetOn : s.rst = State.resetOn s.store := rfl
theorem install_eq_resetOn : State.install p = State.resetOn (.loaded p) := rfl
theorem reject_eq_resetOn : State.reject e = State.resetOn (.rejected e) := rfl

@[simp] theorem program_loaded : Store.program (.loaded p) = some p := rfl
@[simp] theorem program_empty : Store.program .empty = none := rfl
@[simp] theorem program_rejected : Store.program (.rejected e) = none := rfl
@[simp] theorem rst_program : s.rst.program = s.program := rfl
@[simp] theorem install_program : (State.install p).program = some p := rfl
@[simp] theorem reject_program : (State.reject e).program = none := rfl
@[simp] theorem reset_program : State.reset.program = none := rfl

@[simp] theorem raise_store : s.raiseInvalidState.store = s.store := rfl
@[simp] theorem raise_reg : s.raiseInvalidState.reg = s.reg := rfl
@[simp] theorem raise_cycle : s.raiseInvalidState.cycle = s.cycle := rfl
@[simp] theorem raise_pc : s.raiseInvalidState.pc = s.pc := rfl
@[simp] theorem raise_phase : s.raiseInvalidState.phase = s.phase := rfl
@[simp] theorem raise_err : s.raiseInvalidState.err = 1#1 := rfl
@[simp] theorem raise_errCode : s.raiseInvalidState.errCode = 2#2 := rfl
@[simp] theorem raise_program : s.raiseInvalidState.program = s.program := rfl

@[simp] theorem retire_store : (s.retire c v).store = s.store := rfl
@[simp] theorem retire_reg : (s.retire c v).reg = v := rfl
@[simp] theorem retire_cycle : (s.retire c v).cycle = s.cycle + BitVec.ofNat 64 c := rfl
@[simp] theorem retire_pc : (s.retire c v).pc = s.pc + 1#32 := rfl
@[simp] theorem retire_phase : (s.retire c v).phase = 0#1 := rfl
@[simp] theorem retire_err : (s.retire c v).err = s.err := rfl
@[simp] theorem retire_errCode : (s.retire c v).errCode = s.errCode := rfl
@[simp] theorem retire_program : (s.retire c v).program = s.program := rfl

@[simp] theorem elapse_store : s.elapse.store = s.store := rfl
@[simp] theorem elapse_reg : s.elapse.reg = s.reg := rfl
@[simp] theorem elapse_cycle : s.elapse.cycle = s.cycle := rfl
@[simp] theorem elapse_pc : s.elapse.pc = s.pc := rfl
@[simp] theorem elapse_phase : s.elapse.phase = s.phase + 1#1 := rfl
@[simp] theorem elapse_err : s.elapse.err = s.err := rfl
@[simp] theorem elapse_errCode : s.elapse.errCode = s.errCode := rfl
@[simp] theorem elapse_program : s.elapse.program = s.program := rfl

@[simp] theorem decodeErr_resetOn_loaded : (State.resetOn (.loaded p)).decodeErr = 0#1 := rfl
@[simp] theorem decodeErr_resetOn_rejected : (State.resetOn (.rejected e)).decodeErr = 1#1 := rfl
@[simp] theorem decodeErr_resetOn_empty : (State.resetOn .empty).decodeErr = 0#1 := rfl
@[simp] theorem decodeLine_resetOn_loaded : (State.resetOn (.loaded p)).decodeLine = none := rfl
@[simp] theorem decodeLine_resetOn_rejected :
    (State.resetOn (.rejected e)).decodeLine = some (BitVec.ofNat 32 e.line) := rfl
@[simp] theorem decodeLine_resetOn_empty : (State.resetOn .empty).decodeLine = none := rfl

/-- The load port's outputs are those of the store alone. -/
theorem decodeErr_of_store {s t : State} (h : t.store = s.store) : t.decodeErr = s.decodeErr := by
  simp [State.decodeErr, h]

theorem decodeLine_of_store {s t : State} (h : t.store = s.store) : t.decodeLine = s.decodeLine := by
  simp [State.decodeLine, h]

theorem program_eq_some_iff : s.program = some p ↔ s.store = .loaded p := by
  unfold State.program Store.program
  cases s.store <;> simp

end Sys2Proof.Machine
end

