-- ==== Sys2Proof/Laws/Ops.lean ====
section
/-! SUPPORT. What each shared operation can do, said once: the narrowing sum, the fetch, the instruction, the tick and the
requests. -/

namespace Sys2Proof.Machine

/-! ## The operand form -/

theorem cost_pos (i : Instr) : 1 ≤ cost i := by cases i <;> simp [cost]

theorem cost_le_maxCost (i : Instr) : cost i ≤ 2 := by cases i <;> simp [cost]

theorem signed32_bounds (v : Word) : -(2 ^ 31) ≤ signed32 v ∧ signed32 v ≤ 2 ^ 31 - 1 := by
  unfold signed32
  have h1 := v.toInt_lt
  have h2 := v.le_toInt
  constructor <;> omega

/-- `wrap_32` of an integer is the value of the range congruent to it modulo 2^32. -/
theorem signed32_wrap32 (i : Int) : signed32 (wrap32 i) = i.bmod (2 ^ 32) := by
  simp [signed32, wrap32, BitVec.toInt_ofInt]

theorem signed32_wrap32_of_range {i : Int} (lo : -(2 ^ 31) ≤ i) (hi : i ≤ 2 ^ 31 - 1) :
    signed32 (wrap32 i) = i := by
  rw [signed32_wrap32]
  exact Int.bmod_eq_of_le (by omega) (by omega)

theorem wrap32_signed32 (v : Word) : wrap32 (signed32 v) = v := by
  simp [signed32, wrap32]

/-- Narrowing after each sum or once at the end is the same. -/
theorem wrap32_add_signed32_wrap32 (i j : Int) : wrap32 (signed32 (wrap32 i) + j) = wrap32 (i + j) := by
  have : wrap32 (signed32 (wrap32 i) + j) = wrap32 (signed32 (wrap32 i)) + wrap32 j := by
    simp [wrap32, BitVec.ofInt_add]
  rw [this, wrap32_signed32]
  simp [wrap32, BitVec.ofInt_add]

/-! ## The fetch -/

theorem fetch_next {s : State} {p : Memory} {i : Instr} (hp : s.program = some p) (hi : p[s.pc.toNat]? = some i) :
    fetch s = .next i := by
  simp [fetch, hp, hi]

theorem fetch_halted {s : State} {p : Memory} (hp : s.program = some p) (hn : p.length ≤ s.pc.toNat) :
    fetch s = .fault (.invalidStateError s.raiseInvalidState) := by
  simp [fetch, hp, hn]

theorem fetch_noProgram {s : State} (hp : s.program = none) : fetch s = .refused .noProgram := by
  simp [fetch, hp]

/-- Everything a fetch can do. -/
theorem fetch_cases (s : State) :
    (s.program = none ∧ fetch s = .refused .noProgram) ∨
    (∃ p, s.program = some p ∧ p.length ≤ s.pc.toNat ∧
      fetch s = .fault (.invalidStateError s.raiseInvalidState)) ∨
    (∃ p i, s.program = some p ∧ p[s.pc.toNat]? = some i ∧ fetch s = .next i) := by
  cases hp : s.program with
  | none => exact .inl ⟨rfl, fetch_noProgram hp⟩
  | some p =>
    cases hi : p[s.pc.toNat]? with
    | none => exact .inr (.inl ⟨p, rfl, by simpa using hi, fetch_halted hp (by simpa using hi)⟩)
    | some i => exact .inr (.inr ⟨p, i, rfl, hi, fetch_next hp hi⟩)

/-! ## The instruction, the step and the tick -/

/-- Every instruction is one retire. -/
theorem exec_eq (i : Instr) (s : State) : exec i s = .next (s.retire (cost i) (effect i s.reg)) := by
  cases i <;> rfl

theorem step_of_fetch {s : State} {i : Instr} (h : fetch s = .next i) : step s = exec i s := by
  simp [step, h]

theorem step_next {s : State} {p : Memory} {i : Instr} (hp : s.program = some p) (hi : p[s.pc.toNat]? = some i) :
    step s = .next (s.retire (cost i) (effect i s.reg)) := by
  rw [step_of_fetch (fetch_next hp hi), exec_eq]

theorem step_halted {s : State} {p : Memory} (hp : s.program = some p) (hn : p.length ≤ s.pc.toNat) :
    step s = .fault (.invalidStateError s.raiseInvalidState) := by
  simp [step, fetch_halted hp hn]

theorem tick_next {s : State} {p : Memory} {i : Instr} (hp : s.program = some p) (hi : p[s.pc.toNat]? = some i) :
    tick s = if s.phase.toNat + 1 = cost i then .next (s.retire (cost i) (effect i s.reg)) else .next s.elapse := by
  simp [tick, fetch_next hp hi, exec_eq]

theorem tick_halted {s : State} {p : Memory} (hp : s.program = some p) (hn : p.length ≤ s.pc.toNat) :
    tick s = .fault (.invalidStateError s.raiseInvalidState) := by
  simp [tick, fetch_halted hp hn]

/-- Everything a step can do. -/
theorem step_cases (s : State) :
    (s.program = none ∧ step s = .refused .noProgram) ∨
    (∃ p, s.program = some p ∧ p.length ≤ s.pc.toNat ∧
      step s = .fault (.invalidStateError s.raiseInvalidState)) ∨
    (∃ p i, s.program = some p ∧ p[s.pc.toNat]? = some i ∧
      step s = .next (s.retire (cost i) (effect i s.reg))) := by
  obtain ⟨hp, h⟩ | ⟨p, hp, hn, h⟩ | ⟨p, i, hp, hi, h⟩ := fetch_cases s
  · exact .inl ⟨hp, by simp [step, h]⟩
  · exact .inr (.inl ⟨p, hp, hn, by simp [step, h]⟩)
  · exact .inr (.inr ⟨p, i, hp, hi, by rw [step_of_fetch h, exec_eq]⟩)

/-- Everything a tick can do. -/
theorem tick_cases (s : State) :
    (s.program = none ∧ tick s = .refused .noProgram) ∨
    (∃ p, s.program = some p ∧ p.length ≤ s.pc.toNat ∧
      tick s = .fault (.invalidStateError s.raiseInvalidState)) ∨
    (∃ p i, s.program = some p ∧ p[s.pc.toNat]? = some i ∧ s.phase.toNat + 1 = cost i ∧
      tick s = .next (s.retire (cost i) (effect i s.reg))) ∨
    (∃ p i, s.program = some p ∧ p[s.pc.toNat]? = some i ∧ s.phase.toNat + 1 ≠ cost i ∧
      tick s = .next s.elapse) := by
  obtain ⟨hp, h⟩ | ⟨p, hp, hn, h⟩ | ⟨p, i, hp, hi, h⟩ := fetch_cases s
  · exact .inl ⟨hp, by simp [tick, h]⟩
  · exact .inr (.inl ⟨p, hp, hn, by simp [tick, h]⟩)
  · by_cases hc : s.phase.toNat + 1 = cost i
    · exact .inr (.inr (.inl ⟨p, i, hp, hi, hc, by simp [tick, h, hc, exec_eq]⟩))
    · exact .inr (.inr (.inr ⟨p, i, hp, hi, hc, by simp [tick, h, hc]⟩))

/-- A 1-bit counter is 0 or 1. -/
theorem phase_zero_or_one (b : BitVec 1) : b = 0#1 ∨ b = 1#1 := by
  have : ∀ b : BitVec 1, b = 0#1 ∨ b = 1#1 := by decide
  exact this b

/-- The pc of a retired instruction does not wrap while it is below the largest program length. -/
theorem pc_succ_toNat {pc : Pc} {p : Memory} (hlen : p.length ≤ Config.maxProgramLength)
    (h : pc.toNat < p.length) : (pc + 1#32).toNat = pc.toNat + 1 := by
  have : p.length ≤ 2 ^ 32 - 1 := hlen
  rw [BitVec.toNat_add]
  simp
  omega

/-! ## Many steps and many ticks -/

@[simp] theorem steps_zero (s : State) : steps 0 s = .next s := rfl
@[simp] theorem ticks_zero (s : State) : ticks 0 s = .next s := rfl

theorem steps_succ_of_next {s t : State} (h : step s = .next t) (n : Nat) : steps (n + 1) s = steps n t := by
  simp [steps, h]

theorem ticks_succ_of_next {s t : State} (h : tick s = .next t) (n : Nat) : ticks (n + 1) s = ticks n t := by
  simp [ticks, h]

theorem steps_succ_of_fault {s : State} {r : Fault} (h : step s = .fault r) (n : Nat) : steps (n + 1) s = .fault r := by
  simp [steps, h]

/-- Steps in two parts. -/
theorem steps_add_of_next {n : Nat} {s t : State} (h : steps n s = .next t) (m : Nat) : steps (n + m) s = steps m t := by
  induction n generalizing s with
  | zero =>
    cases h
    rw [Nat.zero_add]
  | succ n ih =>
    rw [Nat.add_right_comm]
    cases hs : step s with
    | next u =>
      rw [steps_succ_of_next hs] at h ⊢
      exact ih h
    | fault r => simp [steps, hs] at h
    | refused r => simp [steps, hs] at h

/-- Ticks in two parts. -/
theorem ticks_add_of_next {n : Nat} {s t : State} (h : ticks n s = .next t) (m : Nat) : ticks (n + m) s = ticks m t := by
  induction n generalizing s with
  | zero =>
    cases h
    rw [Nat.zero_add]
  | succ n ih =>
    rw [Nat.add_right_comm]
    cases hs : tick s with
    | next u =>
      rw [ticks_succ_of_next hs] at h ⊢
      exact ih h
    | fault r => simp [ticks, hs] at h
    | refused r => simp [ticks, hs] at h

/-! ## The requests -/

/-- Everything the end of a load can do. -/
theorem finishLoad_cases (s : State) (verdict : Except DecodeError Memory) :
    (∃ e, verdict = .error e ∧ s.finishLoad verdict = (State.reject e, .decodeError e)) ∨
    (∃ p, verdict = .ok p ∧ p.length ≤ Config.maxProgramLength ∧ s.finishLoad verdict = (State.install p, .done)) ∨
    (∃ p, verdict = .ok p ∧ Config.maxProgramLength < p.length ∧
      s.finishLoad verdict = (s, .refused .programTooLong)) := by
  cases verdict with
  | error e => exact .inl ⟨e, rfl, rfl⟩
  | ok p =>
    by_cases h : p.length ≤ Config.maxProgramLength
    · exact .inr (.inl ⟨p, rfl, h, by simp [State.finishLoad, h]⟩)
    · exact .inr (.inr ⟨p, rfl, by omega, by simp [State.finishLoad, h]⟩)

/-- The code of a reply: 1 and 2 for the two error kinds, 0 for every other reply. -/
@[simp] theorem code_done : Reply.done.code = 0#2 := rfl
@[simp] theorem code_invalidStateError : Reply.invalidStateError.code = 2#2 := rfl
@[simp] theorem code_decodeError (e : DecodeError) : (Reply.decodeError e).code = 1#2 := rfl
@[simp] theorem code_refused (r : Refusal) : (Reply.refused r).code = 0#2 := rfl
@[simp] theorem error_done : Reply.done.error = none := rfl
@[simp] theorem error_invalidStateError : Reply.invalidStateError.error = some .invalidStateError := rfl
@[simp] theorem error_decodeError (e : DecodeError) : (Reply.decodeError e).error = some .decodeError := rfl
@[simp] theorem error_refused (r : Refusal) : (Reply.refused r).error = none := rfl

@[simp] theorem finishRun_next (s t : State) : s.finishRun (.next t) = (t, .done) := rfl
@[simp] theorem finishRun_fault (s t : State) :
    s.finishRun (.fault (.invalidStateError t)) = (t, .invalidStateError) := rfl
@[simp] theorem finishRun_refused (s : State) (r : Refusal) : s.finishRun (.refused r) = (s, .refused r) := rfl

end Sys2Proof.Machine
end

