-- ==== Sys2Proof/Laws/Memory.lean ====
section
/-! SUPPORT. What every operation that writes the program store keeps: its form (Memory.wf). A program store is written by
a load (30_encoding.md R48) and by nothing else. -/

namespace Sys2Proof

theorem operandInRange_iff (d : Int) : operandInRange d = true ↔ -(2 ^ 31) ≤ d ∧ d ≤ 2 ^ 31 - 1 := by
  simp [operandInRange]

theorem wf_addx_iff (d : Int) : (Instr.addx d).wf = true ↔ -(2 ^ 31) ≤ d ∧ d ≤ 2 ^ 31 - 1 := by
  simp [Instr.wf]

theorem decodeWord_wf {w : InstrWord} {i : Instr} (h : decodeWord w = .ok i) : i.wf = true := by
  unfold decodeWord at h
  split at h
  · cases h
    exact (wf_addx_iff _).mpr (Machine.signed32_bounds _)
  · split at h
    · cases h; rfl
    · cases h

theorem decodeMagnitude_wf {negative : Bool} {ds : List Byte} {i : Instr} (h : decodeMagnitude negative ds = .ok i) :
    i.wf = true := by
  unfold decodeMagnitude at h
  split at h
  · cases h
  · split at h
    · cases h
      exact (wf_addx_iff _).mpr ((operandInRange_iff _).mp ‹_›)
    · cases h

theorem decodeOperand_wf {token : List Byte} {i : Instr} (h : decodeOperand token = .ok i) : i.wf = true := by
  cases token with
  | nil => cases h
  | cons b ds =>
    simp only [decodeOperand] at h
    split at h <;> exact decodeMagnitude_wf h

theorem decodeLine_wf {line : List Byte} {i : Instr} (h : decodeLine line = .ok i) : i.wf = true := by
  unfold decodeLine at h
  split at h
  · cases h
  · split at h
    · split at h
      · cases h; rfl
      · cases h
    · split at h
      · split at h
        · cases h
        · exact decodeOperand_wf h
        · cases h
      · cases h

/-- The loop of `LoadProgram` succeeds exactly when every item decodes, and then entry `k` is item `k` decoded. -/
theorem decodeAll_ok_iff {α : Type} (decode : α → Except DecodeCause Instr) (quote : α → Offending) (n : Nat)
    (xs : List α) (p : Memory) :
    decodeAll decode quote n xs = .ok p ↔ List.Forall₂ (fun x i => decode x = .ok i) xs p := by
  induction xs generalizing n p with
  | nil => simp [decodeAll, eq_comm]
  | cons x xs ih =>
    rw [List.forall₂_cons_left_iff]
    unfold decodeAll
    cases hx : decode x with
    | error c => simp
    | ok i =>
      cases hr : decodeAll decode quote (n + 1) xs with
      | error e =>
        simp only [reduceCtorEq, false_iff, not_exists, not_and]
        rintro j q - hq -
        rw [(ih (n + 1) q).mpr hq] at hr
        cases hr
      | ok q =>
        have hq := (ih (n + 1) q).mp hr
        constructor
        · intro h
          cases h
          exact ⟨i, q, rfl, hq, rfl⟩
        · rintro ⟨j, q', hj, hq', rfl⟩
          have h' := (ih (n + 1) q').mpr hq'
          rw [hr] at h'
          cases h'
          cases hj
          rfl

theorem decodeAll_wf {α : Type} {decode : α → Except DecodeCause Instr} {quote : α → Offending} {n : Nat} {xs : List α}
    {p : Memory} (hw : ∀ x i, decode x = .ok i → i.wf = true) (h : decodeAll decode quote n xs = .ok p) :
    p.all Instr.wf = true := by
  have hf := (decodeAll_ok_iff decode quote n xs p).mp h
  clear h
  induction hf with
  | nil => rfl
  | cons hx _ ih => simp [hw _ _ hx, ih]

/-- Every entry a text load yields is well formed. -/
theorem loadText_wf {text : List Byte} {p : Memory} (h : loadText text = .ok p) : p.all Instr.wf = true :=
  decodeAll_wf (fun _ _ => decodeLine_wf) h

/-- Every entry a load of words yields is well formed. -/
theorem loadWords_wf {words : List InstrWord} {p : Memory} (h : loadWords words = .ok p) : p.all Instr.wf = true :=
  decodeAll_wf (fun _ _ => decodeWord_wf) h

namespace Machine

/-- A store holds no Program or one in the form of `Memory.wf`. -/
def Store.wf (st : Store) : Bool :=
  match st with
  | .empty => true
  | .rejected _ => true
  | .loaded p => p.wf

theorem reset_store_wf : State.reset.store.wf = true := rfl

/-- The end of a load keeps the store's form. -/
theorem finishLoad_wf {s : State} {verdict : Except DecodeError Memory} (hs : s.store.wf = true)
    (hv : ∀ p, verdict = .ok p → p.all Instr.wf = true) : (s.finishLoad verdict).1.store.wf = true := by
  obtain ⟨e, -, h⟩ | ⟨p, hp, hn, h⟩ | ⟨p, hp, hn, h⟩ := finishLoad_cases s verdict
  · rw [h]; rfl
  · rw [h]
    simp [install_eq_resetOn, Store.wf, Memory.wf, hn]
    simpa using hv p hp
  · rw [h]; exact hs

/-- Placing a well-formed instruction below the largest address keeps the store's form. -/
theorem placeAt_wf {p : Memory} {k : Nat} {i : Instr} (hp : p.wf = true) (hi : i.wf = true)
    (hk : k < Config.maxProgramLength) : (Memory.placeAt p k i).wf = true := by
  simp only [Memory.wf, Bool.and_eq_true, List.all_eq_true, decide_eq_true_eq] at hp ⊢
  refine ⟨fun j hj => ?_, ?_⟩
  · simp only [Memory.placeAt, List.append_assoc, List.mem_append, List.mem_replicate, List.mem_cons] at hj
    obtain h | ⟨-, rfl⟩ | rfl | h := hj
    · exact hp.1 j (List.mem_of_mem_take h)
    · rfl
    · exact hi
    · exact hp.1 j (List.mem_of_mem_drop h)
  · have := hp.2
    simp only [Memory.placeAt, List.length_append, List.length_take, List.length_replicate, List.length_cons,
      List.length_drop]
    omega

/-- The entry a word is placed at holds it. -/
theorem placeAt_get (p : Memory) (k : Nat) (i : Instr) : (Memory.placeAt p k i)[k]? = some i := by
  have h : (p.take k ++ List.replicate (k - p.length) Instr.noop).length = k := by simp; omega
  rw [Memory.placeAt, List.getElem?_append_right (by omega), h]
  simp

/-- A word placed for the fetch is the instruction the next step runs. -/
theorem step_withFetchWord {s : State} {nbits w : Nat} {i : Instr} (h : decodeTableWord nbits w = some i) :
    step (s.withFetchWord nbits w) = exec i (s.withFetchWord nbits w) := by
  apply step_of_fetch
  unfold decodeTableWord at h
  cases hw : tableWord nbits w with
  | none => rw [hw] at h; cases h
  | some word =>
    rw [hw] at h
    cases hd : decodeWord word with
    | error c => simp [hd] at h
    | ok j =>
      have hij : j = i := by simpa [hd] using h
      subst hij
      have hp : (s.withFetchWord nbits w).program =
          some (Memory.placeAt ((Store.program s.store).getD []) s.pc.toNat j) := by
        simp [State.program, State.withFetchWord, Store.withWord, hw, hd]
      exact fetch_next hp (placeAt_get _ _ _)

/-- The end of a step or a tick leaves the store as it is. -/
theorem step_store {s t : State} (h : step s = .next t) : t.store = s.store := by
  obtain ⟨_, hs⟩ | ⟨_, _, _, hs⟩ | ⟨_, _, _, _, hs⟩ := step_cases s <;> rw [hs] at h <;> cases h
  rfl

theorem tick_store {s t : State} (h : tick s = .next t) : t.store = s.store := by
  obtain ⟨_, hs⟩ | ⟨_, _, _, hs⟩ | ⟨_, _, _, _, _, hs⟩ | ⟨_, _, _, _, _, hs⟩ := tick_cases s <;> rw [hs] at h <;> cases h <;>
    rfl

/-- Every request keeps the store's form. -/
theorem serve_store_wf (r : Request) {s : State} (hs : s.store.wf = true) : (serve r s).1.store.wf = true := by
  cases r with
  | loadText text => exact finishLoad_wf hs (fun _ => loadText_wf)
  | loadWords words => exact finishLoad_wf hs (fun _ => loadWords_wf)
  | rst => exact hs
  | stepReq =>
    obtain ⟨_, h⟩ | ⟨_, _, _, h⟩ | ⟨_, _, _, _, h⟩ := step_cases s <;> simpa [serve, h] using hs
  | tickReq =>
    obtain ⟨_, h⟩ | ⟨_, _, _, h⟩ | ⟨_, _, _, _, _, h⟩ | ⟨_, _, _, _, _, h⟩ := tick_cases s <;>
      simpa [serve, h] using hs

end Machine

end Sys2Proof
end

