-- ==== Sys2Proof/Laws/Decode.lean ====
section
/-! SUPPORT. The fields of an instruction word (30_encoding.md R51): a word is its two fields joined, and the decoder reads
them back. -/

namespace Sys2Proof

@[simp] theorem opField_append (op : BitVec 1) (imm : BitVec 32) : opField (op ++ imm) = op := by
  apply BitVec.eq_of_getLsbD_eq
  intro k hk
  have : k = 0 := by omega
  subst this
  simp only [opField, BitVec.getLsbD_extractLsb', BitVec.getLsbD_append]
  simp

@[simp] theorem immField_append (op : BitVec 1) (imm : BitVec 32) : immField (op ++ imm) = imm := by
  apply BitVec.eq_of_getLsbD_eq
  intro k hk
  simp only [immField, BitVec.getLsbD_extractLsb', BitVec.getLsbD_append]
  simp [hk]

theorem word_eq_append (w : InstrWord) : w = opField w ++ immField w := by
  apply BitVec.eq_of_getLsbD_eq
  intro k hk
  simp only [opField, immField, BitVec.getLsbD_append, BitVec.getLsbD_extractLsb']
  by_cases h : k < 32
  · simp [h]
  · have : k = 32 := by omega
    subst this
    simp

end Sys2Proof
end

