-- ==== Sys2Proof/Laws/PerInstr.lean ====
section
/-! SUPPORT. The statements made per instruction: one lemma for each constructor of Instr. -/

namespace Sys2Proof.Laws

/-- The cost of every instruction is between 1 and `MAX_COST` (R57, R14). -/
def CostBounds.Statement (i : Instr) : Prop := 1 ≤ Machine.cost i ∧ Machine.cost i ≤ Config.maxCost

theorem CostBounds.noop : CostBounds.Statement .noop :=
  ⟨Machine.cost_pos _, Machine.cost_le_maxCost _⟩

theorem CostBounds.addx (d : Int) : CostBounds.Statement (.addx d) :=
  ⟨Machine.cost_pos _, Machine.cost_le_maxCost _⟩

/-- The word of every instruction belongs to the instruction's row of the opcode table (R51). -/
def EncodingMatchesRow.Statement (i : Instr) : Prop := rowMatches (rowOf i) (encode i) = true

theorem EncodingMatchesRow.noop : EncodingMatchesRow.Statement .noop := by
  unfold EncodingMatchesRow.Statement
  decide

/-- Bit 32 of an `addx` word is 1, whatever the operand. -/
theorem encode_addx_row (imm : BitVec 32) : (1#1 ++ imm) &&& addxRow.mask = addxRow.pattern := by
  apply BitVec.eq_of_getLsbD_eq
  intro k hk
  simp only [addxRow, BitVec.getLsbD_and, BitVec.getLsbD_append]
  by_cases h : k < 32
  · have : (0x100000000#33).getLsbD k = false := by
      have : ∀ k < 32, (0x100000000#33).getLsbD k = false := by decide
      exact this k h
    simp [this]
  · have : k = 32 := by omega
    subst this
    simp

theorem EncodingMatchesRow.addx (d : Int) : EncodingMatchesRow.Statement (.addx d) := by
  simp [EncodingMatchesRow.Statement, rowMatches, rowOf, encode, encode_addx_row]

end Sys2Proof.Laws
end

