-- ==== Sys2Proof/Laws/Timeline.lean ====
section
/-! SUPPORT. Counting along a program: the recurrences of X_k and C_k (40_step_and_retire.md R62), bounds on the cycle
count, and the length of the timeline. -/

namespace Sys2Proof.Machine

@[simp] theorem regAfter_zero (p : Memory) : regAfter p 0 = 1#32 := rfl
@[simp] theorem cycleAfter_zero (p : Memory) : cycleAfter p 0 = 0 := rfl

theorem take_succ_of_get {p : Memory} {k : Nat} {i : Instr} (h : p[k]? = some i) : p.take (k + 1) = p.take k ++ [i] := by
  rw [List.take_add_one, h]
  rfl

theorem regAfter_succ {p : Memory} {k : Nat} {i : Instr} (h : p[k]? = some i) :
    regAfter p (k + 1) = effect i (regAfter p k) := by
  simp [regAfter, take_succ_of_get h]

theorem cycleAfter_succ {p : Memory} {k : Nat} {i : Instr} (h : p[k]? = some i) :
    cycleAfter p (k + 1) = cycleAfter p k + cost i := by
  simp [cycleAfter, take_succ_of_get h]

theorem cycleAfter_le_double (p : Memory) (k : Nat) : cycleAfter p k ≤ 2 * (p.take k).length := by
  unfold cycleAfter
  induction p.take k with
  | nil => simp
  | cons i is ih =>
    have := cost_le_maxCost i
    simp only [List.map_cons, List.sum_cons, List.length_cons]
    omega

theorem length_le_cycleAfter (p : Memory) (k : Nat) : (p.take k).length ≤ cycleAfter p k := by
  unfold cycleAfter
  induction p.take k with
  | nil => simp
  | cons i is ih =>
    have := cost_pos i
    simp only [List.map_cons, List.sum_cons, List.length_cons]
    omega

/-- The counter never overflows on a program of the allowed length (R14). -/
theorem cycleAfter_lt {p : Memory} (h : p.length ≤ Config.maxProgramLength) (k : Nat) : cycleAfter p k ≤ 2 ^ 33 - 2 := by
  have h1 := cycleAfter_le_double p k
  have h2 : (p.take k).length ≤ p.length := by simp
  have h3 : p.length ≤ 2 ^ 32 - 1 := h
  omega

theorem timelineFrom_length (v : Word) (p : Memory) : (timelineFrom v p).length = (p.map cost).sum := by
  induction p generalizing v with
  | nil => rfl
  | cons i is ih => simp [timelineFrom, ih]

theorem timeline_length (p : Memory) : (timeline p).length = totalCycles p := by
  simp [timeline, totalCycles, cycleAfter, timelineFrom_length]

/-- The timeline of a program cut in two: the second part begins with the register the first leaves. -/
theorem timelineFrom_append (v : Word) (p q : Memory) :
    timelineFrom v (p ++ q) = timelineFrom v p ++ timelineFrom (p.foldl (fun v i => effect i v) v) q := by
  induction p generalizing v with
  | nil => rfl
  | cons i is ih => simp [timelineFrom, ih]

/-- The timeline around instruction `k`: what came before, its own cycles, what comes after. -/
theorem timeline_at {p : Memory} {k : Nat} {i : Instr} (h : p[k]? = some i) :
    timeline p = timelineFrom 1#32 (p.take k) ++
      (List.replicate (cost i) (regAfter p k) ++ timelineFrom (regAfter p (k + 1)) (p.drop (k + 1))) := by
  have hk : k < p.length := by
    obtain ⟨hk, _⟩ := List.getElem?_eq_some_iff.mp h
    exact hk
  have hp : p = p.take k ++ i :: p.drop (k + 1) := by
    have hi : p[k] = i := by simpa [hk] using h
    rw [← hi, List.getElem_cons_drop hk, List.take_append_drop]
  rw [regAfter_succ h]
  conv_lhs => rw [hp]
  rw [timeline, timelineFrom_append]
  rfl

end Sys2Proof.Machine
end

