-- ==== Sys2Proof/Tests/Slice0.lean ====
section
/-! SUPPORT. The model's own tests. Expected values are those of spec/95_test_vectors.md (named L2.x, P<n> beside each
test) or worked by hand from the rules cited. The last part shows, for every statement with hypotheses, data that meet
them. -/

namespace Sys2Proof.Tests

open Sys2Proof.Machine

/-- The bytes of an ASCII text. -/
def ascii (s : String) : List Byte := s.toList.map (fun c => BitVec.ofNat 8 c.toNat)

/-- A machine on a program, with no error. -/
def on (p : Memory) (reg : Int) (cycle pc : Nat) (phase : BitVec 1 := 0#1) : State :=
  { store := .loaded p, reg := BitVec.ofInt 32 reg, cycle := BitVec.ofNat 64 cycle, pc := BitVec.ofNat 32 pc,
    phase := phase, err := 0#1, errCode := 0#2 }

/-- The next state, where there is one. -/
def after (o : Host.Outcome State Fault Refusal) : Option State :=
  match o with
  | .next t => some t
  | .fault _ => none
  | .refused _ => none

/-- The machine a fault leaves, where there is one. -/
def left (o : Host.Outcome State Fault Refusal) : Option State :=
  match o with
  | .next _ => none
  | .fault (.invalidStateError t) => some t
  | .refused _ => none

/-- Program T1 of L2.6, which is P1. -/
def progT1 : Memory := [.noop, .addx 3, .addx (-5)]
/-- Program T2 of L2.6. -/
def progT2 : Memory := [.addx 5, .addx 7, .noop]
/-- The program of L2.7. -/
def progTick : Memory := [.addx 3, .noop]
/-- Program T3 of L2.10, which is P4. -/
def progT3 : Memory := .addx (-2) :: List.replicate 39 .noop

/-! ## Well-formedness: an ill-formed term for each check -/

theorem test_wf_addx_largest : (Instr.addx 2147483647).wf = true := by decide
theorem test_wf_refuses_addx_too_large : (Instr.addx 2147483648).wf = false := by decide
theorem test_wf_refuses_addx_too_small : (Instr.addx (-2147483649)).wf = false := by decide
theorem test_wf_store_refuses_ill_formed_entry : Memory.wf [.noop, .addx 2147483648] = false := by decide
theorem test_wf_store_refuses_too_long (p : Memory) (h : p.length = 2 ^ 32) : Memory.wf p = false := by
  simp [Memory.wf, Config.maxProgramLength, h]
theorem test_wf_targets_refuses_zero : Targets.wf [0, 20] = false := by decide
theorem test_wf_targets_refuses_repeats : Targets.wf [20, 20] = false := by decide
theorem test_wf_targets_example : Targets.wf Config.exampleTargets = true := by decide

/-! ## Binary words, written from R51 (L2.3) -/

theorem test_decode_noop_word : decodeWord (0#1 ++ 0x00000000#32) = .ok .noop := by decide
theorem test_decode_addx_minus5 : decodeWord 0x1FFFFFFFB#33 = .ok (.addx (-5)) := by decide
theorem test_decode_addx_most_negative : decodeWord 0x180000000#33 = .ok (.addx (-2147483648)) := by decide
theorem test_decode_reserved_low : decodeWord 0x000000001#33 = .error .reservedWord := by decide
theorem test_decode_reserved_high : decodeWord 0x080000000#33 = .error .reservedWord := by decide
theorem test_encode_addx_minus5 : encode (.addx (-5)) = 0x1FFFFFFFB#33 := by decide
theorem test_encode_noop : encode .noop = 0x000000000#33 := by decide
theorem test_table_word_noop : decodeTableWord 40 0 = some .noop := by decide
theorem test_table_word_addx : decodeTableWord 40 0x17FFFFFFF = some (.addx 2147483647) := by decide
theorem test_table_word_too_wide : decodeTableWord 40 0x200000000 = none := by decide

/-! ## Text (L2.1, L2.2) -/

theorem test_line_noop : decodeLine (ascii "noop") = .ok .noop := by decide
theorem test_line_blanks : decodeLine (ascii "  addx\t-12  ") = .ok (.addx (-12)) := by decide
theorem test_line_leading_zeros : decodeLine (ascii "addx 007") = .ok (.addx 7) := by decide
theorem test_line_minus_zero : decodeLine (ascii "addx -0") = .ok (.addx 0) := by decide
theorem test_line_smallest : decodeLine (ascii "addx -2147483648") = .ok (.addx (-2147483648)) := by decide
theorem test_line_too_small : decodeLine (ascii "addx -2147483649") = .error .operandOutOfRange := by decide
theorem test_line_plus : decodeLine (ascii "addx +5") = .error .malformedOperand := by decide
theorem test_line_hex : decodeLine (ascii "addx 0x10") = .error .malformedOperand := by decide
theorem test_line_missing : decodeLine (ascii "addx") = .error .missingOperand := by decide
theorem test_line_extra : decodeLine (ascii "addx 1 2") = .error .extraToken := by decide
theorem test_line_noop_operand : decodeLine (ascii "noop 0") = .error .extraToken := by decide
theorem test_line_upper_case : decodeLine (ascii "NOOP") = .error .unknownMnemonic := by decide
theorem test_line_blank : decodeLine (ascii "   ") = .error .blankLine := by decide
theorem test_text_crlf : loadText (ascii "noop\r\naddx 3\r\n") = .ok [.noop, .addx 3] := by decide
theorem test_text_no_final_newline : loadText (ascii "noop\naddx 3") = .ok [.noop, .addx 3] := by decide
theorem test_text_blank_line : loadText (ascii "noop\n\naddx 3\n") = .error ⟨2, .line []⟩ := by decide
theorem test_text_first_failure :
    loadText (ascii "noop\naddx 4\naddx\nfoo 3\n") = .error ⟨3, .line (ascii "addx")⟩ := by decide
theorem test_print_smallest : printInstr (.addx (-2147483648)) = ascii "addx -2147483648" := by decide

/-! ## Steps (L2.4, L2.5) -/

theorem test_step_noop : after (step (on [.noop, .noop] 1 0 0)) = some (on [.noop, .noop] 1 1 1) := by decide
theorem test_step_addx : after (step (on progT1 4 3 2)) = some (on progT1 (-1) 5 3) := by decide
theorem test_step_wraps :
    after (step (on [.addx 1] 2147483647 100 0)) = some (on [.addx 1] (-2147483648) 102 1) := by decide
theorem test_step_halted :
    left (step (on progT1 (-1) 5 3)) = some { on progT1 (-1) 5 3 with err := 1#1, errCode := 2#2 } := by decide
theorem test_step_empty_program :
    left (step (State.install [])) = some { State.install [] with err := 1#1, errCode := 2#2 } := by decide
theorem test_step_runs_placed_word :
    after (step (State.reset.withFetchWord 40 0x100000003)) = some (on [.addx 3] 4 2 1) := by decide

/-! ## Ticks and status (L2.7, L2.8) -/

theorem test_tick_first : after (tick (on progTick 1 0 0)) = some (on progTick 1 0 0 1#1) := by decide
theorem test_tick_second : after (tick (on progTick 1 0 0 1#1)) = some (on progTick 4 2 1) := by decide
theorem test_status_not_started : (on progT1 1 0 0).status = some .notStarted := by decide
theorem test_status_in_first_addx : (on progTick 1 0 0 1#1).status = some .running := by decide
theorem test_status_halted_when_empty : (State.install []).status = some .halted := by decide

/-! ## The port (P5, R106) -/

theorem test_load_failure_leaves_no_program :
    serve (.loadText (ascii "noop\nfoo 3\n")) (on progT1 4 3 2) =
      (State.reject ⟨2, .line (ascii "foo 3")⟩, .decodeError ⟨2, .line (ascii "foo 3")⟩) := by decide
theorem test_step_refused_without_program :
    serve .stepReq (State.reject ⟨1, .line []⟩) = (State.reject ⟨1, .line []⟩, .refused .noProgram) := by decide
theorem test_decode_line_of_failed_load :
    (serve (.loadText (ascii "noop\nfoo 3\n")) (on progT1 4 3 2)).1.decodeErr = 1#1 ∧
    (serve (.loadText (ascii "noop\nfoo 3\n")) (on progT1 4 3 2)).1.decodeLine = some 2#32 := by decide
theorem test_load_words_installs :
    serve (.loadWords [0x000000000#33, 0x100000003#33]) State.reset = (State.install [.noop, .addx 3], .done) := by decide

/-! ## Timeline and observers (L2.6, L2.9, L2.10) -/

theorem test_timeline_T1 : timeline progT1 = [1#32, 1#32, 1#32, 4#32, 4#32] := by decide
theorem test_sample_T1 : sample progT1 [1, 2, 3, 4, 5, 6] = 42 := by decide
theorem test_sample_T2_ordinal : sample progT2 [2, 3] = 20 := by decide
theorem test_signal_T2 : signal progT2 [5, 6] = 65 := by decide
theorem test_render_T1 : imageText (render progT1) = ascii "#####" := by decide
theorem test_raster_T3_wraps_row :
    imageText (raster progT3) = ascii "##......................................\n#" := by decide

/-! ## Witnesses: data that meet the hypotheses of each statement -/

/-- T1 before its last instruction: C_2 = 3, X_2 = 4. -/
theorem runInv_T1_mid : RunInv progT1 (on progT1 4 3 2) :=
  ⟨by decide, by decide, by decide, by decide, fun i h => (by cases h; decide), fun h => (by revert h; decide), .inl ⟨rfl, rfl⟩⟩

/-- T1 halted: C_3 = 5, X_3 = -1. -/
theorem runInv_T1_halted : RunInv progT1 (on progT1 (-1) 5 3) :=
  ⟨by decide, by decide, by decide, by decide, fun i h => (by cases h), fun _ => rfl, .inl ⟨rfl, rfl⟩⟩

/-- The first instruction of L2.7 half way. -/
theorem runInv_tick_mid : RunInv progTick (on progTick 1 0 0 1#1) :=
  ⟨by decide, by decide, by decide, by decide, fun i h => (by cases h; decide), fun h => (by revert h; decide), .inl ⟨rfl, rfl⟩⟩

theorem witness_EffectAddsAndWraps :
    -(2 ^ 31) ≤ signed32 0x7FFFFFFE#32 + 1 ∧ signed32 0x7FFFFFFE#32 + 1 ≤ 2 ^ 31 - 1 ∧
    -(2 ^ 31) ≤ signed32 0x80000001#32 + -1 ∧ signed32 0x80000001#32 + -1 ≤ 2 ^ 31 - 1 := by decide

theorem witness_ExecFrame : exec .noop (on progT1 1 0 0) = .next (on progT1 1 1 1) ∧
    (on progT1 1 0 0).program = some progT1 ∧ (on progT1 1 1 1).program = some progT1 := ⟨rfl, rfl, rfl⟩

theorem witness_NoopRule : (on [.noop] 1 0 0).program = some [.noop] ∧
    ([.noop] : Memory)[(on [.noop] 1 0 0).pc.toNat]? = some .noop ∧ (on [.noop] 1 0 0).phase = 0#1 ∧
    after (step (on [.noop] 1 0 0)) = some (on [.noop] 1 1 1) ∧ Memory.wf [.noop] = true ∧
    ([.noop] : Memory).length = (on [.noop] 1 0 0).pc.toNat + 1 := by decide

theorem witness_AddxRule :
    (Instr.addx (-(2 ^ 31))).wf = true ∧ (Instr.addx (2 ^ 31 - 1)).wf = true ∧
    (Instr.addx (2 ^ 31)).wf = false ∧ (Instr.addx (-(2 ^ 31) - 1)).wf = false ∧
    tokens (ascii "1") = [ascii "1"] ∧ tokens (ascii "2") = [ascii "2"] ∧
    (on progTick 1 0 0).program = some progTick ∧ progTick[(on progTick 1 0 0).pc.toNat]? = some (.addx 3) ∧
    (on progTick 1 0 0).phase = 0#1 ∧ (on progTick 1 0 0 1#1).phase = 1#1 ∧ 0 + 1 < progTick.length ∧
    progT2[0]? = some (.addx 5) ∧ progT2[0 + 1]? = some (.addx 7) := by decide

theorem witness_EveryInstructionCompletes :
    (on progT1 4 3 2).program = some progT1 ∧ (on progT1 4 3 2).pc.toNat < progT1.length ∧
    (∃ r, step (on progT1 (-1) 5 3) = .fault r) ∧ (∃ r, tick (on progT1 (-1) 5 3) = .fault r) :=
  ⟨rfl, by decide, ⟨_, rfl⟩, ⟨_, rfl⟩⟩

/-- pc = 0, pc = N - 1 and pc = N. -/
theorem witness_pc_boundaries :
    (on progT1 1 0 0).program = some progT1 ∧ (on progT1 1 0 0).pc.toNat < progT1.length ∧
    (on progT1 4 3 2).pc.toNat < progT1.length ∧ (on progT1 (-1) 5 3).program = some progT1 ∧
    (on progT1 (-1) 5 3).pc.toNat = progT1.length := by decide

theorem witness_FetchReadsTheEntry :
    (on progT1 4 3 2).pc.toNat < progT1.length ∧ (on progT1 4 3 2).program = some progT1 ∧
    (on progT1 (-1) 5 3).program = some progT1 ∧ (on progT1 (-1) 5 3).pc.toNat = progT1.length := by decide

theorem witness_HaltedMachineRaisesInvalidState :
    (on progT1 (-1) 5 3).program = some progT1 ∧ (on progT1 (-1) 5 3).pc.toNat = progT1.length ∧
    (on progT1 4 3 2).program = some progT1 ∧ (on progT1 4 3 2).pc.toNat < progT1.length := by decide

theorem witness_StepAdvancesOneInstruction :
    (on progT1 4 3 2).program = some progT1 ∧ progT1[(on progT1 4 3 2).pc.toNat]? = some (.addx (-5)) ∧
    (on progT1 4 3 2).phase = 0#1 ∧ (on progT1 (-1) 5 3).pc.toNat = progT1.length := by decide

theorem witness_StepRunsTheDecodedInstruction :
    loadWords [0x000000000#33, 0x100000003#33] = .ok [.noop, .addx 3] ∧
    (on [.noop, .addx 3] 1 1 1).program = some [.noop, .addx 3] ∧
    [0x000000000#33, 0x100000003#33][(on [.noop, .addx 3] 1 1 1).pc.toNat]? = some 0x100000003#33 ∧
    loadText (ascii "noop\naddx 3\n") = .ok [.noop, .addx 3] ∧
    (splitLines (ascii "noop\naddx 3\n"))[(on [.noop, .addx 3] 1 1 1).pc.toNat]? = some (ascii "addx 3") := by decide

theorem witness_TickExecutesOneCycle :
    (on progTick 1 0 0).program = some progTick ∧ progTick[(on progTick 1 0 0).pc.toNat]? = some (.addx 3) ∧
    (on progTick 1 0 0).phase = 0#1 ∧ (on progTick 1 0 0).phase.toNat < cost (.addx 3) ∧
    (on progTick 1 0 0).phase.toNat + 1 ≠ cost (.addx 3) ∧
    (on progTick 1 0 0 1#1).phase.toNat + 1 = cost (.addx 3) ∧
    progTick[(on progTick 4 2 1).pc.toNat]? = some .noop ∧ (on progTick 4 2 1).phase = 0#1 ∧
    (on progTick 4 3 2).pc.toNat = progTick.length := by decide

theorem witness_TickLevelStepIsTheStep :
    (on progTick 1 0 0).phase = 0#1 ∧ (on progTick 1 0 0 1#1).program = some progTick ∧
    progTick[(on progTick 1 0 0 1#1).pc.toNat]? = some (.addx 3) ∧ (on progTick 1 0 0 1#1).phase = 1#1 ∧
    (on progTick 4 3 2).program = some progTick ∧ (on progTick 4 3 2).pc.toNat = progTick.length := by decide

theorem witness_TicksRefineTheStep :
    (on progTick 1 0 0).program = some progTick ∧ progTick[(on progTick 1 0 0).pc.toNat]? = some (.addx 3) ∧
    (on progTick 1 0 0).phase = 0#1 ∧ 0 < 1 ∧ 1 < cost (.addx 3) ∧
    after (ticks 1 (on progTick 1 0 0)) = some (on progTick 1 0 0 1#1) ∧ progTick.wf = true ∧ 2 ≤ progTick.length ∧
    (on progTick 1 0 0).pc.toNat < progTick.length := by decide

theorem witness_CycleCountsCosts : RunInv progTick (on progTick 1 0 0 1#1) ∧
    (on progTick 1 0 0 1#1).program = some progTick ∧
    after (step (on progTick 1 0 0 1#1)) = some (on progTick 4 2 1) ∧
    after (tick (on progTick 1 0 0 1#1)) = some (on progTick 4 2 1) ∧
    RunInv progT1 (on progT1 (-1) 5 3) ∧ (left (step (on progT1 (-1) 5 3))).isSome = true :=
  ⟨runInv_tick_mid, by decide, by decide, by decide, runInv_T1_halted, by decide⟩

theorem witness_PcCountsInstructions : RunInv progT1 (on progT1 4 3 2) ∧ (on progT1 4 3 2).program = some progT1 ∧
    after (step (on progT1 4 3 2)) = some (on progT1 (-1) 5 3) ∧ RunInv progT1 (on progT1 (-1) 5 3) ∧
    (on progT1 (-1) 5 3).pc.toNat = progT1.length :=
  ⟨runInv_T1_mid, by decide, by decide, runInv_T1_halted, by decide⟩

theorem witness_OnlyAddxRetireWritesReg :
    after (step (on progT1 4 3 2)) = some (on progT1 (-1) 5 3) ∧ (on progT1 (-1) 5 3).reg ≠ (on progT1 4 3 2).reg ∧
    after (tick (on progTick 1 0 0 1#1)) = some (on progTick 4 2 1) ∧
    (on progTick 4 2 1).reg ≠ (on progTick 1 0 0 1#1).reg := by decide

theorem witness_StatusFormula :
    (on progT1 1 0 0).program = some progT1 ∧ (on progT1 (-1) 5 3).pc.toNat = progT1.length ∧
    (on progT1 1 0 0).pc.toNat ≠ progT1.length ∧ (on progT1 1 0 0).pc = 0#32 ∧ (on progT1 1 0 0).phase = 0#1 ∧
    (on progTick 1 0 0 1#1).pc.toNat ≠ progTick.length ∧ (on progTick 1 0 0 1#1).phase ≠ 0#1 ∧
    (on progT1 1 1 1).pc ≠ 0#32 := by decide

theorem witness_StatusFormula_run : RunInv progT1 (on progT1 4 3 2) ∧ (on progT1 4 3 2).phase = 0#1 :=
  ⟨runInv_T1_mid, rfl⟩

theorem witness_StatusMovesForward : RunInv progT1 (on progT1 4 3 2) ∧ (on progT1 4 3 2).program = some progT1 ∧
    after (step (on progT1 4 3 2)) = some (on progT1 (-1) 5 3) ∧
    (on progT1 (-1) 5 3).status = some .halted ∧
    (on progT1 4 3 2).Inv ∧ (on progT1 4 3 2).status ≠ some .notStarted ∧
    (serve .rst (on progT1 4 3 2)).1.status = some .notStarted :=
  ⟨runInv_T1_mid, by decide, by decide, by decide, runInv_T1_mid, by decide, by decide⟩

theorem witness_ErrorOutputIsSticky :
    (on progT1 (-1) 5 3).program = some progT1 ∧ (on progT1 (-1) 5 3).pc.toNat = progT1.length ∧
    (serve .stepReq (on progT1 (-1) 5 3)).1.err = 1#1 ∧ (on progT1 (-1) 5 3).err = 0#1 ∧
    (serve .rst (on progT1 (-1) 5 3).raiseInvalidState).1.err = 0#1 ∧
    (on progT1 (-1) 5 3).raiseInvalidState.err = 1#1 := by decide

theorem witness_ErrorOutputIsSticky_inv : (on progT1 (-1) 5 3).Inv := runInv_T1_halted

/-- The failed load, of text and of words: on a machine with the error recorded, it leaves no Program and `err` at 0. -/
theorem witness_ErrorOutputIsSticky_failed_load :
    loadText (ascii "foo 3\n") = .error ⟨1, .line (ascii "foo 3")⟩ ∧
    loadWords [0x000000001#33] = .error ⟨1, .word 0x000000001#33⟩ ∧
    (on progT1 (-1) 5 3).raiseInvalidState.err = 1#1 ∧
    (serve (.loadText (ascii "foo 3\n")) (on progT1 (-1) 5 3).raiseInvalidState).1.err = 0#1 ∧
    (serve (.loadText (ascii "foo 3\n")) (on progT1 (-1) 5 3).raiseInvalidState).1.program = none := by decide

theorem witness_ErrorOutputIsSticky_failed_load_inv : (on progT1 (-1) 5 3).raiseInvalidState.Inv :=
  ⟨by decide, by decide, by decide, by decide, fun i h => (by cases h), fun _ => rfl, .inr ⟨rfl, rfl, by decide⟩⟩

theorem witness_OutputsAreProjections :
    (on progTick 1 0 0 1#1).program = some progTick ∧ RunInv progTick (on progTick 1 0 0 1#1) :=
  ⟨rfl, runInv_tick_mid⟩

theorem witness_ResetValues : (on progT1 4 3 2).program = some progT1 := rfl

theorem witness_LoadInstallsOrLeavesNoProgram :
    loadText (ascii "noop\n") = .ok [.noop] ∧ ([.noop] : Memory).length ≤ Config.maxProgramLength ∧
    loadWords [0x000000000#33] = .ok [.noop] ∧ loadText (ascii "foo 3\n") = .error ⟨1, .line (ascii "foo 3")⟩ ∧
    loadWords [0x000000001#33] = .error ⟨1, .word 0x000000001#33⟩ ∧ State.reset.program = none ∧
    (on progT1 4 3 2).program = some progT1 := by decide

/-- A failing first line and a failing later one, a failing later word, a load that succeeds, and a refused request. -/
theorem witness_LoadPortOutputs_text :
    (splitLines (ascii "foo 3\n"))[0]? = some (ascii "foo 3") ∧
    decodeLine (ascii "foo 3") = .error .unknownMnemonic ∧
    (splitLines (ascii "noop\nfoo 3\n"))[1]? = some (ascii "foo 3") ∧
    loadText (ascii "noop\n") = .ok [.noop] ∧ ([.noop] : Memory).length ≤ Config.maxProgramLength ∧
    (serve .stepReq State.reset).2 = .refused .noProgram := by decide

theorem witness_LoadPortOutputs_text_before :
    ∀ m < 1, ∀ l, (splitLines (ascii "noop\nfoo 3\n"))[m]? = some l → ∃ i, decodeLine l = .ok i := by
  intro m hm l hl
  obtain rfl : m = 0 := by omega
  cases hl
  exact ⟨.noop, by decide⟩

theorem witness_LoadPortOutputs_words :
    [0x000000000#33, 0x000000001#33][1]? = some 0x000000001#33 ∧
    decodeWord 0x000000001#33 = .error .reservedWord ∧
    (∀ m < 1, ∀ v, [0x000000000#33, 0x000000001#33][m]? = some v → ∃ i, decodeWord v = .ok i) ∧
    loadWords [0x000000000#33] = .ok [.noop] := by
  refine ⟨rfl, rfl, fun m hm v hv => ?_, rfl⟩
  obtain rfl : m = 0 := by omega
  cases hv
  exact ⟨.noop, rfl⟩

theorem witness_ErrorKindsAndCodes :
    (serve (.loadText (ascii "foo 3\n")) State.reset).2.error = some .decodeError ∧
    (serve (.loadWords [0x000000001#33]) State.reset).2.error = some .decodeError ∧
    (serve .stepReq (on progT1 (-1) 5 3)).2.error = some .invalidStateError ∧
    (serve .tickReq (on progT1 (-1) 5 3)).2.error = some .invalidStateError ∧
    (on progT1 (-1) 5 3).status = some .halted ∧
    (serve .stepReq (on progT1 4 3 2)).2.error = none ∧ (serve .stepReq State.reset).2.error = none := by decide

theorem witness_ErrorKindsAndCodes_inv : (on progT1 (-1) 5 3).Inv ∧ State.reset.Inv := ⟨runInv_T1_halted, rfl⟩

theorem witness_OnlyLoadChangesTheProgram :
    (serve (.loadText (ascii "noop\n")) (on progT1 4 3 2)).1.program ≠ (on progT1 4 3 2).program ∧
    after (step (on progT1 4 3 2)) = some (on progT1 (-1) 5 3) ∧
    after (tick (on progTick 1 0 0)) = some (on progTick 1 0 0 1#1) := by decide

theorem witness_ResetMeetsTheInvariant : progT1.wf = true := by decide

theorem witness_StepKeepsTheInvariant : (on progT1 4 3 2).Inv ∧
    after (step (on progT1 4 3 2)) = some (on progT1 (-1) 5 3) ∧ (on progT1 (-1) 5 3).Inv ∧
    (left (step (on progT1 (-1) 5 3))).isSome = true :=
  ⟨runInv_T1_mid, by decide, runInv_T1_halted, by decide⟩

theorem witness_EveryRequestKeepsTheInvariant : (on progTick 1 0 0 1#1).Inv ∧ State.reset.Inv :=
  ⟨runInv_tick_mid, rfl⟩

/-- k = 0 and k = N, and one step too many. -/
theorem witness_StateAfterKSteps : progT1.wf = true ∧ 0 ≤ progT1.length ∧ 3 ≤ progT1.length := by decide

theorem witness_EveryRunTerminates : progT1.wf = true ∧ Memory.wf [] = true ∧ 3 ≤ progT1.length ∧
    progT1.length < 4 ∧ 4 < totalCycles progT1 := by decide

/-- The first and the last cycle of the occupancy interval of instruction 1 of T1, and the last cycle of the run. -/
theorem witness_TimelineShowsTheValueBefore :
    progT1.wf = true ∧ 3 ≤ progT1.length ∧ progT1[1]? = some (.addx 3) ∧ 1 < progT1.length ∧
    cycleAfter progT1 1 ≤ 1 ∧ 2 < cycleAfter progT1 (1 + 1) ∧ 4 < totalCycles progT1 := by decide

theorem witness_RegBeforeTickIsTheTimeline : RunInv progTick (on progTick 1 0 0 1#1) ∧
    (on progTick 1 0 0 1#1).pc.toNat < progTick.length ∧ progTick.wf = true ∧ 2 < totalCycles progTick :=
  ⟨runInv_tick_mid, by decide, by decide, by decide⟩

theorem witness_LineSplitting :
    lf ∉ ascii "noop" ∧ (ascii "noop").getLast? ≠ some cr ∧ ascii "noop" ≠ [] ∧ lf ∉ ([] : List Byte) ∧
    ([] : List Byte).getLast? ≠ some cr ∧ loadText (ascii "noop\n") = .ok [.noop] ∧ 1 ≤ 1 ∧
    (splitLines (ascii "noop\n"))[1 - 1]? = some (ascii "noop") ∧ ascii "foo" ∈ splitLines (ascii "foo\n") ∧
    decodeLine (ascii "foo") = .error .unknownMnemonic := by decide

theorem witness_Tokenising :
    isBlank space = true ∧ isBlank tab = true ∧ ascii "addx" ≠ [] ∧ (∀ b ∈ ascii "addx", isBlank b = false) ∧
    tokens (ascii " addx 3") = tokens (ascii "addx\t3") ∧ tokens (ascii "foo 3") = [ascii "foo", ascii "3"] ∧
    ascii "foo" ≠ noopBytes ∧ ascii "foo" ≠ addxBytes := by decide

theorem witness_PrintThenDecodeLine : Instr.noop.wf = true ∧ (Instr.addx (-(2 ^ 31))).wf = true ∧
    (Instr.addx (2 ^ 31 - 1)).wf = true ∧ decodeLine (ascii "addx 007") = .ok (.addx 7) := by decide

theorem witness_PrintThenLoadProgram : Memory.wf [] = true ∧ progT1.wf = true := by decide

theorem witness_EncodedFields : decodeWord 0x1FFFFFFFB#33 = .ok (.addx (-5)) ∧ rowMatches noopRow 0x000000000#33 = true ∧
    rowMatches addxRow 0x1FFFFFFFB#33 = true := by decide

theorem witness_EveryWordHasOneVerdict : (1#32 : BitVec 32) ≠ 0#32 ∧ 0xFFFFFFFF#32 ≠ 0#32 ∧
    (∀ w ∈ [0x000000000#33], ∃ i, decodeWord w = .ok i) := by
  refine ⟨by decide, by decide, fun w h => ⟨.noop, ?_⟩⟩
  simp at h
  subst h
  rfl

theorem witness_DecodeEncodeRoundTrip : (Instr.addx (-(2 ^ 31))).wf = true ∧ (Instr.addx (2 ^ 31 - 1)).wf = true ∧
    decodeWord 0x180000000#33 = .ok (.addx (-2147483648)) := by decide

theorem witness_SamplerComputesTheSignal : progT1.wf = true ∧ Targets.wf [1, 2, 3, 4, 5, 6] = true := by decide

/-- The first target of a run, the last, and the first beyond it. -/
theorem witness_SignalContractAndEdges : 1 ≤ 1 ∧ 1 ≤ 5 ∧ 5 ≤ totalCycles progT1 ∧ val progT1 (1 - 1) = some 1#32 ∧
    val progT1 (5 - 1) = some 4#32 ∧ totalCycles progT1 < 6 ∧ 6 ∈ [1, 6] := by decide

/-- Every target within the run, the last cycle's among them, and none at all. -/
theorem witness_SignalContractAndEdges_strict :
    (∀ t ∈ [1, 5], t ≤ totalCycles progT1) ∧ (∀ t ∈ ([] : List Nat), t ≤ totalCycles progT1) := by decide

theorem witness_SignalContractAndEdges_perm : [1, 6].Perm [6, 1] := by decide

theorem witness_RendererDrawsTheRaster : progT3.wf = true := by decide

/-- The last pixel of row 0 and the first of the partial row 1 of T3, whose T is 41. -/
theorem witness_RasterShape : 39 < totalCycles progT3 ∧ 40 < totalCycles progT3 ∧ totalCycles progT3 % 40 ≠ 0 ∧
    ((raster progT3)[0]?).isSome = true ∧ 0 < totalCycles progT3 / 40 ∧
    ((raster progT3)[totalCycles progT3 / 40]?).isSome = true := by decide

/-- One whole row, and the empty program. -/
theorem witness_RasterShape_whole_rows :
    totalCycles (List.replicate 40 .noop) % 40 = 0 ∧ totalCycles [] % 40 = 0 := by decide

theorem witness_TickDrivenObserversAgree : progT2.wf = true ∧ Targets.wf [2, 3] = true := by decide

end Sys2Proof.Tests
end

/-! PROOFS. The statements about the state (10_state.md): the invariant of a run, the counters, the register, the run status
and the error output. -/

namespace Sys2Proof.Machine

/-! ## Reading an outcome back

`step_cases` and `tick_cases` say what a step and a tick can do; these are the same facts, read from the outcome. -/

theorem retire_of_step_eq_next {s t : State} (h : step s = .next t) :
    ∃ p i, s.program = some p ∧ p[s.pc.toNat]? = some i ∧ t = s.retire (cost i) (effect i s.reg) := by
  obtain ⟨_, hs⟩ | ⟨_, _, _, hs⟩ | ⟨p, i, hp, hi, hs⟩ := step_cases s <;> rw [hs] at h <;> cases h
  exact ⟨p, i, hp, hi, rfl⟩

theorem raise_of_step_eq_fault {s t : State} (h : step s = .fault (.invalidStateError t)) :
    ∃ p, s.program = some p ∧ p.length ≤ s.pc.toNat ∧ t = s.raiseInvalidState := by
  obtain ⟨_, hs⟩ | ⟨p, hp, hn, hs⟩ | ⟨_, _, _, _, hs⟩ := step_cases s <;> rw [hs] at h <;> cases h
  exact ⟨p, hp, hn, rfl⟩

theorem retire_or_elapse_of_tick_eq_next {s t : State} (h : tick s = .next t) :
    ∃ p i, s.program = some p ∧ p[s.pc.toNat]? = some i ∧
      ((s.phase.toNat + 1 = cost i ∧ t = s.retire (cost i) (effect i s.reg)) ∨
        (s.phase.toNat + 1 ≠ cost i ∧ t = s.elapse)) := by
  obtain ⟨_, hs⟩ | ⟨_, _, _, hs⟩ | ⟨p, i, hp, hi, hc, hs⟩ | ⟨p, i, hp, hi, hc, hs⟩ := tick_cases s <;>
    rw [hs] at h <;> cases h
  · exact ⟨p, i, hp, hi, .inl ⟨hc, rfl⟩⟩
  · exact ⟨p, i, hp, hi, .inr ⟨hc, rfl⟩⟩

theorem raise_of_tick_eq_fault {s t : State} (h : tick s = .fault (.invalidStateError t)) :
    ∃ p, s.program = some p ∧ p.length ≤ s.pc.toNat ∧ t = s.raiseInvalidState := by
  obtain ⟨_, hs⟩ | ⟨p, hp, hn, hs⟩ | ⟨_, _, _, _, _, hs⟩ | ⟨_, _, _, _, _, hs⟩ := tick_cases s <;>
    rw [hs] at h <;> cases h
  exact ⟨p, hp, hn, rfl⟩

/-! ## The invariant of a run (R14, R16, R22, R23, R24) -/

theorem inv_iff_runInv {s : State} {p : Memory} (hp : s.program = some p) : s.Inv ↔ RunInv p s := by
  simp [State.Inv, hp]

theorem eq_resetOn_of_inv {s : State} (hp : s.program = none) (hs : s.Inv) : s = State.resetOn s.store := by
  simpa [State.Inv, hp] using hs

theorem length_le_of_wf {p : Memory} (h : p.wf = true) : p.length ≤ Config.maxProgramLength := by
  simp only [Memory.wf, Bool.and_eq_true, decide_eq_true_eq] at h
  exact h.2

theorem pc_lt_length {p : Memory} {k : Nat} {i : Instr} (hi : p[k]? = some i) : k < p.length :=
  (List.getElem?_eq_some_iff.mp hi).1

/-- A cycle that does not retire its instruction is the first of two: the phase goes from 0 to 1 (R71). -/
theorem phase_eq_zero_of_not_last {s : State} {i : Instr} (hlt : s.phase.toNat < cost i)
    (hne : s.phase.toNat + 1 ≠ cost i) : s.phase = 0#1 ∧ cost i = 2 := by
  have hc := cost_le_maxCost i
  obtain h | h := phase_zero_or_one s.phase
  · refine ⟨h, ?_⟩
    simp only [h, BitVec.toNat_ofNat, Nat.zero_mod] at hlt hne
    omega
  · simp only [h, BitVec.toNat_ofNat] at hlt hne
    omega

namespace RunInv

variable {p : Memory} {s : State} {i : Instr}

theorem cycle_le (h : RunInv p s) : s.cycle.toNat ≤ 2 ^ 33 - 2 := by
  rw [h.cycleIsSum]
  exact cycleAfter_lt (length_le_of_wf h.storeForm) _

/-- The clock of a retire does not wrap (R14). -/
theorem retire_cycle_toNat (h : RunInv p s) (v : Word) :
    (s.retire (cost i) v).cycle.toNat = s.cycle.toNat + cost i := by
  have hc := cost_le_maxCost i
  have hb := h.cycle_le
  rw [retire_cycle, BitVec.toNat_add, BitVec.toNat_ofNat]
  omega

/-- The pc of a retire does not wrap (R16). -/
theorem retire_pc_toNat (h : RunInv p s) (hi : p[s.pc.toNat]? = some i) (c : Nat) (v : Word) :
    (s.retire c v).pc.toNat = s.pc.toNat + 1 :=
  pc_succ_toNat (length_le_of_wf h.storeForm) (pc_lt_length hi)

/-- A machine with an instruction left has raised nothing (R22). -/
theorem noError (h : RunInv p s) (hi : p[s.pc.toNat]? = some i) : s.err = 0#1 ∧ s.errCode = 0#2 := by
  obtain h0 | ⟨-, -, hn⟩ := h.errorOutput
  · exact h0
  · exact absurd hn (pc_lt_length hi).ne

/-- Before the last cycle of the instruction at the pc, a tick leaves the phase at 1 (R71). -/
theorem elapse_phase_eq_one (h : RunInv p s) (hi : p[s.pc.toNat]? = some i) (hne : s.phase.toNat + 1 ≠ cost i) :
    s.elapse.phase = 1#1 := by
  rw [elapse_phase, (phase_eq_zero_of_not_last (h.phaseInInstr i hi) hne).1]
  rfl

theorem resetOn_loaded (hp : p.wf = true) : RunInv p (State.resetOn (.loaded p)) where
  storeForm := hp
  pcInRange := Nat.zero_le _
  cycleIsSum := rfl
  regIsSum := rfl
  phaseInInstr i _ := cost_pos i
  phaseAtHalt _ := rfl
  errorOutput := .inl ⟨rfl, rfl⟩

/-- Retiring the instruction at the pc keeps the invariant. -/
theorem retire (h : RunInv p s) (hi : p[s.pc.toNat]? = some i) :
    RunInv p (s.retire (cost i) (effect i s.reg)) := by
  have hpc := h.retire_pc_toNat hi (cost i) (effect i s.reg)
  constructor
  case storeForm => exact h.storeForm
  case pcInRange => rw [hpc]; exact pc_lt_length hi
  case cycleIsSum => rw [hpc, h.retire_cycle_toNat, h.cycleIsSum, cycleAfter_succ hi]
  case regIsSum => rw [hpc, regAfter_succ hi, retire_reg, h.regIsSum]
  case phaseInInstr => exact fun j _ => cost_pos j
  case phaseAtHalt => exact fun _ => rfl
  case errorOutput => exact .inl (h.noError hi)

/-- A cycle that does not retire the instruction at the pc keeps the invariant. -/
theorem elapse (h : RunInv p s) (hi : p[s.pc.toNat]? = some i) (hne : s.phase.toNat + 1 ≠ cost i) :
    RunInv p s.elapse := by
  constructor
  case storeForm => exact h.storeForm
  case pcInRange => exact h.pcInRange
  case cycleIsSum => exact h.cycleIsSum
  case regIsSum => exact h.regIsSum
  case phaseInInstr =>
    intro j hj
    obtain rfl : i = j := Option.some.inj (hi.symm.trans hj)
    rw [h.elapse_phase_eq_one hi hne, (phase_eq_zero_of_not_last (h.phaseInInstr i hi) hne).2]
    decide
  case phaseAtHalt => exact fun hn => absurd hn (pc_lt_length hi).ne
  case errorOutput => exact h.errorOutput

/-- Raising InvalidStateError past the last instruction keeps the invariant. -/
theorem raise (h : RunInv p s) (hn : p.length ≤ s.pc.toNat) : RunInv p s.raiseInvalidState where
  storeForm := h.storeForm
  pcInRange := h.pcInRange
  cycleIsSum := h.cycleIsSum
  regIsSum := h.regIsSum
  phaseInInstr := h.phaseInInstr
  phaseAtHalt := h.phaseAtHalt
  errorOutput := .inr ⟨rfl, rfl, Nat.le_antisymm h.pcInRange hn⟩

end RunInv

/-- Settles O26: a step is a retire and its fault is a raise, and both keep `RunInv`. -/
theorem stepKeepsTheInvariant : Obligations.StepKeepsTheInvariant := by
  refine ⟨fun s t hs h => ?_, fun s t hs h => ?_⟩
  · obtain ⟨p, i, hp, hi, rfl⟩ := retire_of_step_eq_next h
    exact (inv_iff_runInv ((retire_program ..).trans hp)).mpr (((inv_iff_runInv hp).mp hs).retire hi)
  · obtain ⟨p, hp, hn, rfl⟩ := raise_of_step_eq_fault h
    exact (inv_iff_runInv ((raise_program s).trans hp)).mpr (((inv_iff_runInv hp).mp hs).raise hn)

/-! ## The state after k steps (R24) -/

/-- The invariant, packaged along a run: `k` steps from reset retire the first `k` instructions. -/
theorem steps_install {p : Memory} {k : Nat} (hp : p.wf = true) (hk : k ≤ p.length) :
    ∃ t, steps k (State.install p) = .next t ∧ t.program = some p ∧ t.pc.toNat = k ∧ RunInv p t := by
  induction k with
  | zero => exact ⟨_, rfl, rfl, rfl, .resetOn_loaded hp⟩
  | succ k ih =>
    obtain ⟨t, ht, hprog, rfl, hinv⟩ := ih (Nat.le_of_succ_le hk)
    have hi : p[t.pc.toNat]? = some p[t.pc.toNat] := List.getElem?_eq_getElem hk
    refine ⟨_, ?_, (retire_program t _ _).trans hprog, hinv.retire_pc_toNat hi _ _, hinv.retire hi⟩
    rw [steps_add_of_next ht, steps_succ_of_next (step_next hprog hi), steps_zero]

/-- An instruction's effect on a narrowed sum adds its delta before the narrowing (R58). -/
theorem effect_wrap32 (i : Instr) (v : Int) : effect i (wrap32 v) = wrap32 (v + delta i) := by
  cases i with
  | noop => simp [effect, delta]
  | addx d => exact wrap32_add_signed32_wrap32 v d

theorem foldl_effect_wrap32 (q : Memory) (v : Int) :
    q.foldl (fun w i => effect i w) (wrap32 v) = wrap32 (v + (q.map delta).sum) := by
  induction q generalizing v with
  | nil => simp
  | cons i is ih => rw [List.foldl_cons, effect_wrap32, ih, List.map_cons, List.sum_cons, Int.add_assoc]

theorem regAfter_eq_wrap32_sum (p : Memory) (k : Nat) :
    regAfter p k = wrap32 (1 + ((p.take k).map delta).sum) :=
  foldl_effect_wrap32 (p.take k) 1

/-- Settles O28: by induction on k the run keeps `RunInv`, whose sums are the three of R24. -/
theorem stateAfterKSteps : Obligations.StateAfterKSteps := by
  intro p k hp hk
  obtain ⟨t, ht, -, rfl, hinv⟩ := steps_install hp hk
  exact ⟨t, ht, rfl, hinv.cycleIsSum, hinv.regIsSum.trans (regAfter_eq_wrap32_sum p _)⟩

/-! ## The counters (R14, R16, R17) -/

/-- Settles O15: the clock moves in a retire only, and there it does not wrap. -/
theorem cycleCountsCosts : Obligations.CycleCountsCosts := by
  intro p s h hp
  refine ⟨fun t ht => ?_, fun t ht => ?_, fun t ht => ?_, fun t ht => ?_, h.cycle_le⟩
  · obtain ⟨q, i, hq, hi, rfl⟩ := retire_of_step_eq_next ht
    obtain rfl : p = q := Option.some.inj (hp.symm.trans hq)
    refine ⟨i, hi, h.retire_cycle_toNat _, ?_⟩
    rw [h.retire_cycle_toNat]
    exact Nat.lt_add_of_pos_right (cost_pos i)
  · obtain ⟨q, i, hq, hi, ⟨-, rfl⟩ | ⟨hne, rfl⟩⟩ := retire_or_elapse_of_tick_eq_next ht
    all_goals obtain rfl : p = q := Option.some.inj (hp.symm.trans hq)
    · exact .inr ⟨rfl, i, hi, h.retire_cycle_toNat _⟩
    · exact .inl ⟨rfl, rfl, h.elapse_phase_eq_one hi hne⟩
  · obtain ⟨_, _, _, rfl⟩ := raise_of_step_eq_fault ht
    rfl
  · obtain ⟨_, _, _, rfl⟩ := raise_of_tick_eq_fault ht
    rfl

/-- Settles O16: the pc moves in a retire only, there it does not wrap, and at N nothing retires. -/
theorem pcCountsInstructions : Obligations.PcCountsInstructions := by
  refine ⟨fun _ => rfl, fun p s h hp => ⟨h.pcInRange, fun t ht => ?_, fun t ht => ?_, fun hn t ht => ?_⟩⟩
  · obtain ⟨q, i, hq, hi, rfl⟩ := retire_of_step_eq_next ht
    obtain rfl : p = q := Option.some.inj (hp.symm.trans hq)
    exact ⟨h.retire_pc_toNat hi _ _, (h.retire hi).pcInRange⟩
  · obtain ⟨q, i, hq, hi, ⟨-, rfl⟩ | ⟨hne, rfl⟩⟩ := retire_or_elapse_of_tick_eq_next ht
    all_goals obtain rfl : p = q := Option.some.inj (hp.symm.trans hq)
    · exact .inr ⟨h.retire_pc_toNat hi _ _, (h.retire hi).pcInRange⟩
    · exact .inl ⟨rfl, h.elapse_phase_eq_one hi hne⟩
  · rw [step_halted hp hn.ge] at ht
    cases ht

/-! ## The error output (R22) -/

theorem finishLoad_errorOutput_cases (s : State) (verdict : Except DecodeError Memory) :
    ((s.finishLoad verdict).1.err = s.err ∧ (s.finishLoad verdict).1.errCode = s.errCode) ∨
    (∃ p, (s.finishLoad verdict).1 = State.install p) ∨ (∃ e, (s.finishLoad verdict).1 = State.reject e) := by
  obtain ⟨e, -, h⟩ | ⟨p, -, -, h⟩ | ⟨_, -, -, h⟩ := finishLoad_cases s verdict <;> rw [h]
  · exact .inr (.inr ⟨e, rfl⟩)
  · exact .inr (.inl ⟨p, rfl⟩)
  · exact .inl ⟨rfl, rfl⟩

/-- What a request does to the error output: it leaves it, raises InvalidStateError, or ends in a reset, on the store as it
was or as a load leaves it. -/
theorem serve_errorOutput_cases (r : Request) (s : State) :
    ((serve r s).1.err = s.err ∧ (serve r s).1.errCode = s.errCode) ∨
    serve r s = (s.raiseInvalidState, .invalidStateError) ∨
    (serve r s).1 = s.rst ∨ (∃ p, (serve r s).1 = State.install p) ∨ (∃ e, (serve r s).1 = State.reject e) := by
  cases r with
  | loadText text => exact (finishLoad_errorOutput_cases s _).imp_right fun h => .inr (.inr h)
  | loadWords words => exact (finishLoad_errorOutput_cases s _).imp_right fun h => .inr (.inr h)
  | rst => exact .inr (.inr (.inl rfl))
  | stepReq =>
    obtain ⟨-, h⟩ | ⟨_, -, -, h⟩ | ⟨_, _, -, -, h⟩ := step_cases s <;> simp only [serve, h]
    · exact .inl ⟨rfl, rfl⟩
    · exact .inr (.inl rfl)
    · exact .inl ⟨rfl, rfl⟩
  | tickReq =>
    obtain ⟨-, h⟩ | ⟨_, -, -, h⟩ | ⟨_, _, -, -, -, h⟩ | ⟨_, _, -, -, -, h⟩ := tick_cases s <;> simp only [serve, h]
    · exact .inl ⟨rfl, rfl⟩
    · exact .inr (.inl rfl)
    · exact .inl ⟨rfl, rfl⟩
    · exact .inl ⟨rfl, rfl⟩

theorem errCode_zero_or_two_of_inv {s : State} (hs : s.Inv) : s.errCode = 0#2 ∨ s.errCode = 2#2 := by
  cases hp : s.program with
  | none => rw [eq_resetOn_of_inv hp hs]; exact .inl rfl
  | some p =>
    obtain ⟨-, h⟩ | ⟨-, h, -⟩ := ((inv_iff_runInv hp).mp hs).errorOutput
    · exact .inl h
    · exact .inr h

theorem serve_errCode_zero_or_two {s : State} (hs : s.Inv) (r : Request) :
    (serve r s).1.errCode = 0#2 ∨ (serve r s).1.errCode = 2#2 := by
  obtain ⟨-, h⟩ | h | h | ⟨_, h⟩ | ⟨_, h⟩ := serve_errorOutput_cases r s <;> rw [h]
  · exact errCode_zero_or_two_of_inv hs
  · exact .inr rfl
  all_goals exact .inl rfl

/-- Settles O20: every clause is read from what a request can do to the error output. -/
theorem errorOutputIsSticky : Obligations.ErrorOutputIsSticky := by
  refine ⟨fun s => ⟨rfl, rfl⟩, fun s p hp hn => ?halted, fun r s h1 h0 => ?cleared, fun r s h0 h1 => ?raised,
    fun r s hs => ?codes, fun s text e he => ?text, fun s words e he => ?words⟩
  case halted =>
    simp only [serve, step_halted hp hn.ge, tick_halted hp hn.ge]
    exact ⟨rfl, rfl⟩
  case cleared =>
    obtain ⟨h, -⟩ | h | h | ⟨p, h⟩ | ⟨e, h⟩ := serve_errorOutput_cases r s
    · simp [h, h1] at h0
    · simp [h] at h0
    · exact .inl h
    · exact .inr (.inl ⟨p, h⟩)
    · exact .inr (.inr (by rw [h, reject_program]))
  case raised =>
    obtain ⟨h, -⟩ | h | h | ⟨p, h⟩ | ⟨e, h⟩ := serve_errorOutput_cases r s
    · simp [h, h0] at h1
    · rw [h]
    · simp [h, rst_eq_resetOn] at h1
    · simp [h, install_eq_resetOn] at h1
    · simp [h, reject_eq_resetOn] at h1
  case codes =>
    obtain h | h := serve_errCode_zero_or_two hs r <;> rw [h] <;> decide
  case text =>
    simp only [serve, he]
    exact ⟨rfl, rfl⟩
  case words =>
    simp only [serve, he]
    exact ⟨rfl, rfl⟩

/-! ## The register (R12) -/

theorem exists_addx_of_effect_ne {i : Instr} {v : Word} (h : effect i v ≠ v) : ∃ d, i = .addx d := by
  cases i with
  | noop => exact absurd rfl h
  | addx d => exact ⟨d, rfl⟩

/-- Settles O17: only a retire writes the register, and the retire of a NoOp writes its old value. -/
theorem onlyAddxRetireWritesReg : Obligations.OnlyAddxRetireWritesReg := by
  refine ⟨fun s t h hreg => ?_, fun s t h hreg => ?_⟩
  · obtain ⟨p, i, hp, hi, rfl⟩ := retire_of_step_eq_next h
    obtain ⟨d, rfl⟩ := exists_addx_of_effect_ne hreg
    exact ⟨p, d, hp, hi, rfl⟩
  · obtain ⟨p, i, hp, hi, ⟨hc, rfl⟩ | ⟨-, rfl⟩⟩ := retire_or_elapse_of_tick_eq_next h
    · obtain ⟨d, rfl⟩ := exists_addx_of_effect_ne hreg
      have hphase : s.phase = 1#1 := BitVec.eq_of_toNat_eq (Nat.succ.inj hc)
      exact ⟨p, d, hp, hi, hphase, rfl⟩
    · exact absurd rfl hreg

/-! ## The run status (R19) -/

theorem status_eq_statusOf {s : State} {p : Memory} (hp : s.program = some p) :
    s.status = some (statusOf s.pc s.phase p.length) := by
  simp [State.status, hp]

theorem statusOf_halted {pc : Pc} {n : Nat} (phase : BitVec 1) (h : pc.toNat = n) : statusOf pc phase n = .halted := by
  simp [statusOf, h]

theorem statusOf_notStarted {pc : Pc} {phase : BitVec 1} {n : Nat} (hn : pc.toNat ≠ n) (hpc : pc = 0#32)
    (hph : phase = 0#1) : statusOf pc phase n = .notStarted := by
  rw [statusOf, if_neg hn, if_pos ⟨hpc, hph⟩]

theorem statusOf_running {pc : Pc} {phase : BitVec 1} {n : Nat} (hn : pc.toNat ≠ n)
    (h : pc ≠ 0#32 ∨ phase ≠ 0#1) : statusOf pc phase n = .running := by
  rw [statusOf, if_neg hn, if_neg (not_and_or.mpr h)]

theorem code_ne_three (st : Status) : st.code ≠ 3#2 := by
  cases st <;> decide

/-- Every instruction costs a cycle, so the clock of a run is 0 only before the first one. -/
theorem cycleAfter_eq_zero_iff {p : Memory} {k : Nat} (hk : k ≤ p.length) : cycleAfter p k = 0 ↔ k = 0 := by
  have h := length_le_cycleAfter p k
  rw [List.length_take_of_le hk] at h
  constructor
  · omega
  · rintro rfl
    rfl

theorem RunInv.pc_eq_zero_iff_cycle_eq_zero {p : Memory} {s : State} (h : RunInv p s) :
    s.pc = 0#32 ↔ s.cycle = 0#64 := by
  rw [← BitVec.toNat_inj, ← BitVec.toNat_inj (y := 0#64), h.cycleIsSum]
  exact (cycleAfter_eq_zero_iff h.pcInRange).symm

/-- Settles O18: the three cases of the formula, and the source's test on `cycle` by counting costs. -/
theorem statusFormula : Obligations.StatusFormula := by
  refine ⟨fun s p hp => ?_, rfl, rfl, rfl, rfl, code_ne_three, fun p s h _ => h.pc_eq_zero_iff_cycle_eq_zero⟩
  rw [status_eq_statusOf hp]
  exact ⟨fun hn => congrArg some (statusOf_halted _ hn),
    fun hn hpc hph => congrArg some (statusOf_notStarted hn hpc hph),
    fun hn h => congrArg some (statusOf_running hn h)⟩

end Sys2Proof.Machine

/-! PROOFS. The statements about the program store (20_memory.md): the fetch reads it and only a load writes it. -/

namespace Sys2Proof.Machine

/-- Settles O8: below N the entry at the pc is there to fetch, and at N the fetch faults. -/
theorem fetchReadsTheEntry : Obligations.FetchReadsTheEntry := by
  refine ⟨fun s p hlt hp => fetch_next hp (List.getElem?_eq_getElem hlt), fun s p i hp hn h => ?_⟩
  rw [fetch_halted hp hn.ge] at h
  cases h

/-- A step request leaves the store, whether the step retires, faults or is refused. -/
theorem serve_stepReq_store (s : State) : (serve .stepReq s).1.store = s.store := by
  obtain ⟨-, h⟩ | ⟨_, -, -, h⟩ | ⟨_, _, -, -, h⟩ := step_cases s <;> rw [serve, h] <;> rfl

/-- A tick request leaves the store, whether the tick retires, elapses, faults or is refused. -/
theorem serve_tickReq_store (s : State) : (serve .tickReq s).1.store = s.store := by
  obtain ⟨-, h⟩ | ⟨_, -, -, h⟩ | ⟨_, _, -, -, -, h⟩ | ⟨_, _, -, -, -, h⟩ := tick_cases s <;> rw [serve, h] <;> rfl

/-- Settles O24: a reset, a step request and a tick request each leave the store, which leaves the two loads. -/
theorem onlyLoadChangesTheProgram : Obligations.OnlyLoadChangesTheProgram := by
  refine ⟨fun r s hne => ?_, fun _ _ => step_store, fun _ _ => tick_store⟩
  cases r with
  | loadText text => exact .inl ⟨text, rfl⟩
  | loadWords words => exact .inr ⟨words, rfl⟩
  | rst => exact absurd rfl hne
  | stepReq => exact absurd (congrArg Store.program (serve_stepReq_store s)) hne
  | tickReq => exact absurd (congrArg Store.program (serve_tickReq_store s)) hne

end Sys2Proof.Machine

/-! PROOFS. The statements about the encoding (30_encoding.md): the binary word, the loop of `LoadProgram`, the text form and
the canonical spelling. -/

namespace Sys2Proof

/-! ## The binary word (R51, R52, R53) -/

theorem decodeWord_addx (imm : BitVec 32) : decodeWord (1#1 ++ imm) = .ok (.addx (signed32 imm)) := by
  simp [decodeWord]

theorem decodeWord_noop : decodeWord (0#1 ++ 0#32) = .ok .noop := by
  rw [decodeWord, opField_append, if_neg (by decide), immField_append, if_pos rfl]

theorem decodeWord_reserved {imm : BitVec 32} (h : imm ≠ 0#32) :
    decodeWord (0#1 ++ imm) = .error .reservedWord := by
  simp [decodeWord, h]

/-- What the decoder accepts: the word of NoOp, and every word with `op` = 1. -/
theorem decodeWord_ok_cases {w : InstrWord} {i : Instr} (h : decodeWord w = .ok i) :
    (w = 0#1 ++ 0#32 ∧ i = .noop) ∨ (∃ imm, w = 1#1 ++ imm ∧ i = .addx (signed32 imm)) := by
  obtain ⟨op, imm, rfl⟩ : ∃ (op : BitVec 1) (imm : BitVec 32), w = op ++ imm := ⟨_, _, word_eq_append w⟩
  obtain rfl | rfl := Machine.phase_zero_or_one op
  · by_cases himm : imm = 0#32
    · subst himm
      rw [decodeWord_noop] at h
      cases h
      exact .inl ⟨rfl, rfl⟩
    · rw [decodeWord_reserved himm] at h
      cases h
  · rw [decodeWord_addx] at h
    cases h
    exact .inr ⟨imm, rfl, rfl⟩

theorem decodeWord_encode {i : Instr} (h : i.wf = true) : decodeWord (encode i) = .ok i := by
  cases i with
  | noop => exact decodeWord_noop
  | addx d =>
    obtain ⟨lo, hi⟩ := (wf_addx_iff d).mp h
    rw [encode, decodeWord_addx]
    exact congrArg (fun v => Except.ok (Instr.addx v)) (Machine.signed32_wrap32_of_range lo hi)

theorem encode_of_decodeWord {w : InstrWord} {i : Instr} (h : decodeWord w = .ok i) : encode i = w := by
  obtain ⟨rfl, rfl⟩ | ⟨imm, rfl, rfl⟩ := decodeWord_ok_cases h
  · rfl
  · exact congrArg (1#1 ++ ·) (Machine.wrap32_signed32 imm)

/-- Settles O42: joining the two fields and reading them back are inverse, and so are the operand's narrowing and its sign
reading on the range of the register. -/
theorem decodeEncodeRoundTrip : Obligations.DecodeEncodeRoundTrip :=
  ⟨fun _ => decodeWord_encode, fun _ _ h => ⟨decodeWord_wf h, encode_of_decodeWord h⟩⟩

theorem toNat_one_append (imm : BitVec 32) : (1#1 ++ imm : InstrWord).toNat = 2 ^ 32 + imm.toNat := by
  rw [BitVec.toNat_append, ← Nat.shiftLeft_add_eq_or_of_lt imm.isLt]
  rfl

theorem toNat_ofInt_cast (d : Int) : ((BitVec.ofInt 32 d).toNat : Int) = d % 2 ^ 32 := by
  rw [BitVec.toNat_ofInt]
  exact Int.toNat_of_nonneg (Int.emod_nonneg d (by decide))

/-- The mask of `noop` keeps every bit. -/
theorem rowMatches_noopRow_iff (w : InstrWord) : rowMatches noopRow w = true ↔ w = 0#1 ++ 0#32 := by
  have hmask : w &&& noopRow.mask = w := BitVec.and_allOnes
  rw [rowMatches, hmask, decide_eq_true_iff]
  rfl

/-- The mask of `addx` keeps the `op` bit. -/
theorem opField_of_rowMatches_addxRow {w : InstrWord} (h : rowMatches addxRow w = true) : opField w = 1#1 := by
  have hbit : opField w &&& 1#1 = 1#1 := by
    simpa [opField, addxRow, BitVec.extractLsb'_and] using congrArg opField (of_decide_eq_true h)
  exact (BitVec.and_allOnes (x := opField w)).symm.trans hbit

/-- Settles O40: the fields of a joined word are its parts, and a row's mask selects `op` alone or the whole word. -/
theorem encodedFields : Obligations.EncodedFields := by
  refine ⟨opField_append _ _, immField_append _ _, fun d => ⟨opField_append _ _, ?immField, ?word⟩, by decide,
    fun w d h => ?operand, fun w i h => ?row, fun w h => ?noop, fun w h => ?addx, fun w h => ?disjoint⟩
  case immField => rw [encode, immField_append, BitVec.toNat_ofInt]; rfl
  case word => rw [encode, toNat_one_append, Nat.cast_add, toNat_ofInt_cast]; rfl
  case operand =>
    obtain ⟨-, ⟨⟩⟩ | ⟨imm, rfl, ⟨⟩⟩ := decodeWord_ok_cases h
    rw [immField_append]
  case row =>
    rw [← encode_of_decodeWord h]
    cases i with
    | noop => exact Laws.EncodingMatchesRow.noop
    | addx d => exact Laws.EncodingMatchesRow.addx d
  case noop => rw [(rowMatches_noopRow_iff w).mp h, decodeWord_noop]
  case addx =>
    rw [word_eq_append w, opField_of_rowMatches_addxRow h]
    exact ⟨_, decodeWord_addx _⟩
  case disjoint =>
    obtain ⟨hnoop, haddx⟩ := h
    have hop := opField_of_rowMatches_addxRow haddx
    rw [(rowMatches_noopRow_iff w).mp hnoop, opField_append] at hop
    cases hop

/-! ## The loop of `LoadProgram` (R48) -/

section
variable {α : Type} {decode : α → Except DecodeCause Instr} {quote : α → Offending}

/-- The loop succeeds with the program whose entries are, position by position, the items decoded. -/
theorem decodeAll_ok_iff_getElem? {n : Nat} {xs : List α} {p : Memory} :
    decodeAll decode quote n xs = .ok p ↔
      p.length = xs.length ∧ ∀ (k : Nat) x, xs[k]? = some x → ∃ i, decode x = .ok i ∧ p[k]? = some i := by
  rw [decodeAll_ok_iff, List.forall₂_iff_get]
  constructor
  · rintro ⟨hlen, h⟩
    refine ⟨hlen.symm, fun k x hx => ?_⟩
    obtain ⟨hk, rfl⟩ := List.getElem?_eq_some_iff.mp hx
    exact ⟨_, h k hk (hlen ▸ hk), List.getElem?_eq_getElem _⟩
  · rintro ⟨hlen, h⟩
    refine ⟨hlen.symm, fun k hk hk' => ?_⟩
    obtain ⟨i, hi, hpi⟩ := h k _ (List.getElem?_eq_getElem hk)
    obtain ⟨_, rfl⟩ := List.getElem?_eq_some_iff.mp hpi
    exact hi

/-- The loop stops at an item that does not decode, once it has passed every item before it. -/
theorem decodeAll_error_of_first {before after : List α} {x : α} {c : DecodeCause}
    (hbefore : ∀ y ∈ before, ∃ i, decode y = .ok i) (hx : decode x = .error c) (n : Nat) :
    decodeAll decode quote n (before ++ x :: after) = .error ⟨n + before.length, quote x⟩ := by
  induction before generalizing n with
  | nil => simp [decodeAll, hx]
  | cons y ys ih =>
    obtain ⟨⟨i, hi⟩, hys⟩ := List.forall_mem_cons.mp hbefore
    simp only [List.cons_append, decodeAll, hi, ih hys, List.length_cons]
    rw [Nat.add_right_comm, Nat.add_assoc]

/-- Where the loop stops, there is a first item that does not decode. -/
theorem exists_first_of_decodeAll_error {n : Nat} {xs : List α} {e : DecodeError}
    (h : decodeAll decode quote n xs = .error e) :
    ∃ before x after c, xs = before ++ x :: after ∧ (∀ y ∈ before, ∃ i, decode y = .ok i) ∧ decode x = .error c := by
  induction xs generalizing n e with
  | nil => cases h
  | cons y ys ih =>
    cases hy : decode y with
    | error c => exact ⟨[], y, ys, c, rfl, by simp, hy⟩
    | ok i =>
      cases hys : decodeAll decode quote (n + 1) ys with
      | ok p => simp [decodeAll, hy, hys] at h
      | error e' =>
        obtain ⟨before, x, after, c, rfl, hbefore, hx⟩ := ih hys
        exact ⟨y :: before, x, after, c, rfl, List.forall_mem_cons.mpr ⟨⟨i, hy⟩, hbefore⟩, hx⟩

/-- The error is that of the first item that does not decode. -/
theorem decodeAll_error_iff {n : Nat} {xs : List α} {e : DecodeError} :
    decodeAll decode quote n xs = .error e ↔
      ∃ k x c, e = ⟨n + k, quote x⟩ ∧ xs[k]? = some x ∧ decode x = .error c ∧
        ∀ m < k, ∀ y, xs[m]? = some y → ∃ i, decode y = .ok i := by
  constructor
  · intro h
    obtain ⟨before, x, after, c, rfl, hbefore, hx⟩ := exists_first_of_decodeAll_error h
    rw [decodeAll_error_of_first hbefore hx] at h
    cases h
    refine ⟨before.length, x, c, rfl, by simp, hx, fun m hm y hy => hbefore y ?_⟩
    rw [List.getElem?_append_left hm] at hy
    exact List.mem_of_getElem? hy
  · rintro ⟨k, x, c, rfl, hk, hx, hfirst⟩
    obtain ⟨hlt, rfl⟩ := List.getElem?_eq_some_iff.mp hk
    have hbefore : ∀ y ∈ xs.take k, ∃ i, decode y = .ok i := by
      intro y hy
      obtain ⟨m, hm, rfl⟩ := List.mem_take_iff_getElem.mp hy
      exact hfirst m (by omega) _ (List.getElem?_eq_getElem (by omega))
    have h := decodeAll_error_of_first (quote := quote) (after := xs.drop (k + 1)) hbefore hx n
    rwa [List.getElem_cons_drop, List.take_append_drop, List.length_take_of_le hlt.le] at h

end

/-- Settles O36: the loop's two outcomes, on the lines of the text. -/
theorem firstFailingLineIsReported : Obligations.FirstFailingLineIsReported := by
  refine ⟨fun text p => decodeAll_ok_iff_getElem?, fun text e => ?_⟩
  simp only [Nat.add_comm _ 1]
  exact decodeAll_error_iff

/-- Settles O41: a word is its two fields, which leaves three kinds of word; the load stops at the first reserved one. -/
theorem everyWordHasOneVerdict : Obligations.EveryWordHasOneVerdict := by
  refine ⟨fun w => ⟨_, _, word_eq_append w⟩, decodeWord_addx, decodeWord_noop,
    fun imm h => ⟨_, decodeWord_reserved h⟩, fun before imm after s h hbefore => ?_⟩
  have hload : loadWords (before ++ (0#1 ++ imm) :: after) = .error ⟨before.length + 1, .word (0#1 ++ imm)⟩ := by
    rw [loadWords, decodeAll_error_of_first hbefore (decodeWord_reserved h), Nat.add_comm]
  exact ⟨_, by rw [Machine.serve, hload]; rfl, rfl⟩

/-- The step on a program that a load decoded runs what the decoder reads from the item at the pc. -/
theorem step_eq_exec_of_decodeAll {α : Type} {decode : α → Except DecodeCause Instr} {quote : α → Offending} {n : Nat}
    {xs : List α} {p : Memory} {s : Machine.State} {x : α} (hload : decodeAll decode quote n xs = .ok p)
    (hp : s.program = some p) (hx : xs[s.pc.toNat]? = some x) :
    ∃ i, decode x = .ok i ∧ Machine.step s = Machine.exec i s := by
  obtain ⟨-, hentries⟩ := decodeAll_ok_iff_getElem?.mp hload
  obtain ⟨i, hi, hpi⟩ := hentries _ x hx
  exact ⟨i, hi, Machine.step_of_fetch (Machine.fetch_next hp hpi)⟩

/-- Settles O11: both forms are decoded by the same loop, whose entry at the pc is the item at the pc decoded. -/
theorem stepRunsTheDecodedInstruction : Obligations.StepRunsTheDecodedInstruction := by
  refine ⟨fun words p s w hload hp hw => ?_, fun text p s line hload hp hline => ?_⟩
  · obtain ⟨i, hi, hstep⟩ := step_eq_exec_of_decodeAll hload hp hw
    exact ⟨i, hi, decodeWord_wf hi, hstep⟩
  · obtain ⟨i, hi, hstep⟩ := step_eq_exec_of_decodeAll hload hp hline
    exact ⟨i, hi, decodeLine_wf hi, hstep⟩

/-! ## Line splitting (R40) -/

theorem splitLines_cons_lf (text : List Byte) : splitLines (lf :: text) = [] :: splitLines text := by
  simp [splitLines]

theorem splitLines_cons_cr_lf (text : List Byte) : splitLines (cr :: lf :: text) = [] :: splitLines text := by
  rw [splitLines, if_neg (by decide), if_pos ⟨rfl, rfl⟩, splitLines_cons_lf]

/-- A byte that neither ends a line nor goes with its end stands at the front of the line. -/
theorem splitLines_cons {b : Byte} {text l : List Byte} {ls : List (List Byte)} (hb : b ≠ lf)
    (hcr : ¬ (b = cr ∧ text.head? = some lf)) (h : splitLines text = l :: ls) :
    splitLines (b :: text) = (b :: l) :: ls := by
  rw [splitLines, if_neg hb, if_neg hcr, h]

/-- Bytes without LF in front of a text belong to its first line. -/
theorem splitLines_append {l text r : List Byte} {ls : List (List Byte)} (hl : lf ∉ l)
    (hcr : text.head? = some lf → l.getLast? ≠ some cr) (h : splitLines text = r :: ls) :
    splitLines (l ++ text) = (l ++ r) :: ls := by
  induction l with
  | nil => exact h
  | cons b l ih =>
    obtain ⟨hb, hl⟩ := not_or.mp (List.mem_cons.not.mp hl)
    cases l with
    | nil => exact splitLines_cons (Ne.symm hb) (fun ⟨hbcr, hlf⟩ => hcr hlf (by rw [hbcr]; rfl)) h
    | cons b' l =>
      refine splitLines_cons (Ne.symm hb) (fun ⟨_, hlf⟩ => ?_) (ih hl ?_)
      · exact (not_or.mp (List.mem_cons.not.mp hl)).1 (Option.some.inj hlf).symm
      · simpa using hcr

theorem splitLines_lf_terminated {l : List Byte} (hl : lf ∉ l) (hcr : l.getLast? ≠ some cr) (text : List Byte) :
    splitLines (l ++ lf :: text) = l :: splitLines text := by
  rw [splitLines_append hl (fun _ => hcr) (splitLines_cons_lf text), List.append_nil]

theorem splitLines_crlf_terminated {l : List Byte} (hl : lf ∉ l) (text : List Byte) :
    splitLines (l ++ cr :: lf :: text) = l :: splitLines text := by
  rw [splitLines_append hl (fun h => by cases h) (splitLines_cons_cr_lf text), List.append_nil]

theorem splitLines_unterminated {l : List Byte} (hl : lf ∉ l) (hne : l ≠ []) : splitLines l = [l] := by
  obtain ⟨l, b, rfl⟩ := (List.eq_nil_or_concat l).resolve_left hne
  rw [List.concat_eq_append, List.mem_append, not_or, List.mem_singleton] at hl
  obtain ⟨hl, hb⟩ := hl
  have hlast : splitLines [b] = [[b]] := by simp [splitLines, Ne.symm hb]
  rw [List.concat_eq_append]
  exact splitLines_append hl (fun h => absurd (Option.some.inj h).symm hb) hlast

theorem exists_error_of_mem_splitLines {text line : List Byte} {c : DecodeCause} (hmem : line ∈ splitLines text)
    (hc : decodeLine line = .error c) : ∃ e, loadText text = .error e := by
  cases hload : loadText text with
  | error e => exact ⟨e, rfl⟩
  | ok p =>
    obtain ⟨k, hk⟩ := List.mem_iff_getElem?.mp hmem
    obtain ⟨i, hi, -⟩ := (decodeAll_ok_iff_getElem?.mp hload).2 k line hk
    rw [hc] at hi
    cases hi

/-- Settles O33: the three ends of a line, and the loop over the lines. -/
theorem lineSplitting : Obligations.LineSplitting := by
  refine ⟨rfl, rfl, fun l rest hl hcr => splitLines_lf_terminated hl hcr rest,
    fun l rest hl => splitLines_crlf_terminated hl rest, fun l => splitLines_unterminated, fun text p hload => ?_,
    fun text line c => exists_error_of_mem_splitLines⟩
  obtain ⟨hlen, hentries⟩ := decodeAll_ok_iff_getElem?.mp hload
  exact ⟨hlen, fun i line _ => hentries (i - 1) line⟩

/-! ## Tokens (R41) -/

theorem tokens_cons_blank {b : Byte} (hb : isBlank b = true) (rest : List Byte) : tokens (b :: rest) = tokens rest := by
  rw [tokens, if_pos hb]

/-- Bytes other than separators, up to a separator or the end, are one token. -/
theorem tokens_append {t rest : List Byte} (hne : t ≠ []) (ht : ∀ b ∈ t, isBlank b = false)
    (hrest : tokenEnds rest = true) : tokens (t ++ rest) = t :: tokens rest := by
  induction t with
  | nil => exact absurd rfl hne
  | cons b t ih =>
    obtain ⟨hb, ht⟩ := List.forall_mem_cons.mp ht
    cases t with
    | nil => simp [tokens, hb, hrest]
    | cons b' t =>
      have hinside : tokenEnds (b' :: t ++ rest) = false := ht b' List.mem_cons_self
      rw [List.cons_append, tokens, ih (by simp) ht, hinside]
      simp [hb]

theorem tokens_single {t : List Byte} (hne : t ≠ []) (ht : ∀ b ∈ t, isBlank b = false) : tokens t = [t] := by
  simpa [tokens] using tokens_append (rest := []) hne ht rfl

theorem decodeLine_congr {a b : List Byte} (h : tokens a = tokens b) : decodeLine a = decodeLine b := by
  rw [decodeLine, decodeLine, h]

theorem decodeLine_noop {line : List Byte} (h : tokens line = [noopBytes]) : decodeLine line = .ok .noop := by
  simp [decodeLine, h]

theorem decodeLine_addx {line t : List Byte} (h : tokens line = [addxBytes, t]) : decodeLine line = decodeOperand t := by
  have hne : addxBytes ≠ noopBytes := by decide
  simp [decodeLine, h, hne]

/-- What the decoder accepts: the one token `noop`, and `addx` with one operand. -/
theorem decodeLine_ok_cases {line : List Byte} {i : Instr} (h : decodeLine line = .ok i) :
    (tokens line = [noopBytes] ∧ i = .noop) ∨ (∃ t, tokens line = [addxBytes, t] ∧ decodeOperand t = .ok i) := by
  cases ht : tokens line with
  | nil => simp [decodeLine, ht] at h
  | cons mnemonic operands =>
    simp only [decodeLine, ht] at h
    split at h
    case isTrue hnoop =>
      subst hnoop
      cases operands with
      | nil => cases h; exact .inl ⟨rfl, rfl⟩
      | cons _ _ => cases h
    case isFalse =>
      split at h
      case isTrue haddx =>
        subst haddx
        match operands with
        | [] => cases h
        | [t] => exact .inr ⟨t, rfl, h⟩
        | _ :: _ :: _ => cases h
      case isFalse => cases h

/-- Settles O34: a maximal run of other bytes is one token, and the decoder reads the tokens alone. -/
theorem tokenising : Obligations.Tokenising := by
  refine ⟨fun b => ?separators, rfl, fun b rest hb => tokens_cons_blank hb rest, fun t => tokens_single,
    fun t b rest hne ht hb => ?token, fun a b => decodeLine_congr, fun line m operands hm hnoop haddx => ?mnemonic⟩
  case separators => simp only [isBlank, Bool.or_eq_true, decide_eq_true_eq]; rfl
  case token => rw [tokens_append (rest := b :: rest) hne ht hb, tokens_cons_blank hb]
  case mnemonic =>
    cases hline : decodeLine line with
    | error c => exact ⟨c, rfl⟩
    | ok i =>
      obtain ⟨h, -⟩ | ⟨t, h, -⟩ := decodeLine_ok_cases hline <;> rw [hm] at h <;> cases h
      · exact absurd rfl hnoop
      · exact absurd rfl haddx

/-! ## The operand (R43, R44) -/

theorem isDigit_iff (b : Byte) : isDigit b = true ↔ 0x30 ≤ b.toNat ∧ b.toNat ≤ 0x39 := by
  simp [isDigit]

theorem digitsValue_append_singleton (ds : List Byte) (b : Byte) :
    digitsValue (ds ++ [b]) = 10 * digitsValue ds + (b.toNat - 0x30) := by
  simp [digitsValue]

theorem decodeMagnitude_ok_iff {negative : Bool} {ds : List Byte} {i : Instr} :
    decodeMagnitude negative ds = .ok i ↔
      (ds ≠ [] ∧ ∀ b ∈ ds, isDigit b = true) ∧
      (-(2 ^ 31) ≤ signedValue negative ds ∧ signedValue negative ds ≤ 2 ^ 31 - 1) ∧
      i = .addx (signedValue negative ds) := by
  have hform : (ds.isEmpty || !ds.all isDigit) = true ↔ ¬ (ds ≠ [] ∧ ∀ b ∈ ds, isDigit b = true) := by
    rw [not_and_or, not_ne_iff]
    simp
  rw [decodeMagnitude, ← operandInRange_iff]
  split
  case isTrue hbad => simp [hform.mp hbad]
  case isFalse hgood =>
    rw [hform, not_not] at hgood
    split
    case isTrue hrange =>
      exact ⟨fun h => ⟨hgood, hrange, (Except.ok.inj h).symm⟩, fun ⟨_, _, h⟩ => congrArg Except.ok h.symm⟩
    case isFalse hrange => simp [hrange]

/-- A sign is no digit, so an operand has one or is all digits. -/
theorem decodeOperand_ok_iff {t : List Byte} {i : Instr} :
    decodeOperand t = .ok i ↔
      decodeMagnitude false t = .ok i ∨ ∃ ds, t = minus :: ds ∧ decodeMagnitude true ds = .ok i := by
  cases t with
  | nil => simp [decodeOperand, decodeMagnitude]
  | cons b ds =>
    rw [decodeOperand]
    split
    case isTrue hb =>
      subst hb
      have hdigit : ¬ decodeMagnitude false (minus :: ds) = .ok i := fun h =>
        absurd ((decodeMagnitude_ok_iff.mp h).1.2 minus List.mem_cons_self) (by decide)
      simp [hdigit]
    case isFalse hb => simp [hb]

/-- Settles O35: the two accepted token lists, and the operand read with and without its sign. -/
theorem lineVerdicts : Obligations.LineVerdicts := by
  refine ⟨rfl, rfl, isDigit_iff, rfl, digitsValue_append_singleton, fun line => ⟨fun h => ?noop, decodeLine_noop⟩,
    fun line d => ⟨fun h => ?operand, ?addx⟩⟩
  case noop =>
    obtain ⟨ht, -⟩ | ⟨t, -, hop⟩ := decodeLine_ok_cases h
    · exact ht
    · obtain h | ⟨ds, -, h⟩ := decodeOperand_ok_iff.mp hop
      all_goals cases (decodeMagnitude_ok_iff.mp h).2.2
  case operand =>
    obtain ⟨-, ⟨⟩⟩ | ⟨t, ht, hop⟩ := decodeLine_ok_cases h
    obtain h | ⟨ds, rfl, h⟩ := decodeOperand_ok_iff.mp hop
    all_goals obtain ⟨⟨hne, hds⟩, ⟨lo, hi⟩, ⟨⟩⟩ := decodeMagnitude_ok_iff.mp h
    · exact ⟨t, hne, hds, lo, hi, .inl ⟨ht, rfl⟩⟩
    · exact ⟨ds, hne, hds, lo, hi, .inr ⟨ht, rfl⟩⟩
  case addx =>
    rintro ⟨ds, hne, hds, lo, hi, ⟨ht, rfl⟩ | ⟨ht, rfl⟩⟩ <;> rw [decodeLine_addx ht, decodeOperand_ok_iff]
    · exact .inl (decodeMagnitude_ok_iff.mpr ⟨⟨hne, hds⟩, ⟨lo, hi⟩, rfl⟩)
    · exact .inr ⟨ds, rfl, decodeMagnitude_ok_iff.mpr ⟨⟨hne, hds⟩, ⟨lo, hi⟩, rfl⟩⟩

/-! ## The decimal digits of a number (R55) -/

theorem digitByte_toNat {n : Nat} (h : n < 10) : (digitByte n).toNat = 0x30 + n := by
  rw [digitByte, BitVec.toNat_ofNat]
  omega

theorem isDigit_digitByte {n : Nat} (h : n < 10) : isDigit (digitByte n) = true := by
  rw [isDigit_iff, digitByte_toNat h]
  omega

theorem decimalDigits_of_lt {n : Nat} (h : n < 10) (fuel : Nat) : decimalDigits (fuel + 1) n = [digitByte n] := by
  rw [decimalDigits, if_pos h]

theorem decimalDigits_of_ge {n : Nat} (h : 10 ≤ n) (fuel : Nat) :
    decimalDigits (fuel + 1) n = decimalDigits fuel (n / 10) ++ [digitByte (n % 10)] := by
  rw [decimalDigits, if_neg (Nat.not_lt.mpr h)]

theorem isDigit_of_mem_decimalDigits {fuel n : Nat} {b : Byte} (hb : b ∈ decimalDigits fuel n) :
    isDigit b = true := by
  induction fuel generalizing n with
  | zero => cases hb
  | succ fuel ih =>
    obtain h | h := Nat.lt_or_ge n 10
    · rw [decimalDigits_of_lt h, List.mem_singleton] at hb
      exact hb ▸ isDigit_digitByte h
    · rw [decimalDigits_of_ge h, List.mem_append, List.mem_singleton] at hb
      obtain hb | rfl := hb
      · exact ih hb
      · exact isDigit_digitByte (Nat.mod_lt n (by decide))

/-- The fuel for `n` is enough for `n / 10`. -/
theorem div_ten_lt_two_pow {n fuel : Nat} (h : n < 2 ^ (fuel + 1)) : n / 10 < 2 ^ fuel := by
  rw [Nat.pow_succ] at h
  omega

theorem digitsValue_decimalDigits {fuel n : Nat} (hn : n < 2 ^ fuel) : digitsValue (decimalDigits fuel n) = n := by
  induction fuel generalizing n with
  | zero => exact (Nat.lt_one_iff.mp hn).symm
  | succ fuel ih =>
    obtain h | h := Nat.lt_or_ge n 10
    · rw [decimalDigits_of_lt h, ← List.nil_append [digitByte n], digitsValue_append_singleton, digitByte_toNat h]
      simp [digitsValue]
    · rw [decimalDigits_of_ge h, digitsValue_append_singleton, ih (div_ten_lt_two_pow hn),
        digitByte_toNat (Nat.mod_lt n (by decide))]
      omega

/-- A number other than 0 has a first digit, and it is not 0. -/
theorem head?_decimalDigits_ne_zero {fuel n : Nat} (hn : n < 2 ^ fuel) (h0 : n ≠ 0) :
    (decimalDigits fuel n).head? ≠ some 0x30#8 := by
  induction fuel generalizing n with
  | zero => exact absurd (Nat.lt_one_iff.mp hn) h0
  | succ fuel ih =>
    obtain h | h := Nat.lt_or_ge n 10
    · rw [decimalDigits_of_lt h]
      intro hhead
      have hzero := congrArg BitVec.toNat (Option.some.inj hhead)
      rw [digitByte_toNat h] at hzero
      exact h0 (Nat.add_left_cancel hzero)
    · have hquot := div_ten_lt_two_pow hn
      have hpos : n / 10 ≠ 0 := by omega
      have hne : decimalDigits fuel (n / 10) ≠ [] := by
        intro hnil
        have hvalue := digitsValue_decimalDigits hquot
        rw [hnil] at hvalue
        exact hpos hvalue.symm
      rw [decimalDigits_of_ge h, List.head?_append_of_ne_nil _ hne]
      exact ih hquot hpos

theorem isDigit_of_mem_printNat {n : Nat} {b : Byte} (hb : b ∈ printNat n) : isDigit b = true :=
  isDigit_of_mem_decimalDigits hb

theorem digitsValue_printNat (n : Nat) : digitsValue (printNat n) = n :=
  digitsValue_decimalDigits Nat.lt_log2_self

theorem printNat_ne_nil (n : Nat) : printNat n ≠ [] := by
  obtain h | h := Nat.lt_or_ge n 10
  · simp [printNat, decimalDigits_of_lt h]
  · simp [printNat, decimalDigits_of_ge h]

/-- No leading zeros: only 0 begins with the digit 0. -/
theorem printNat_eq_zero_of_head? {n : Nat} (h : (printNat n).head? = some 0x30#8) : printNat n = [0x30#8] := by
  have h0 : n = 0 := by
    by_contra h0
    exact head?_decimalDigits_ne_zero Nat.lt_log2_self h0 h
  rw [h0]
  rfl

/-! ## The canonical spelling (R55) -/

theorem printInt_eq_append (d : Int) : printInt d = (if d < 0 then [minus] else []) ++ printNat d.natAbs := by
  unfold printInt
  split <;> rfl

theorem le_toNat_of_isDigit {b : Byte} (h : isDigit b = true) : 0x21 ≤ b.toNat := by
  have := (isDigit_iff b).mp h
  omega

/-- A printed operand is of visible characters, which come after space, tab, LF and CR. -/
theorem le_toNat_of_mem_printInt {d : Int} {b : Byte} (hb : b ∈ printInt d) : 0x21 ≤ b.toNat := by
  unfold printInt at hb
  split at hb
  · obtain rfl | hb := List.mem_cons.mp hb
    · decide
    · exact le_toNat_of_isDigit (isDigit_of_mem_printNat hb)
  · exact le_toNat_of_isDigit (isDigit_of_mem_printNat hb)

theorem isBlank_eq_false_of_le {b : Byte} (h : 0x21 ≤ b.toNat) : isBlank b = false := by
  rw [Bool.eq_false_iff]
  intro hb
  simp only [isBlank, Bool.or_eq_true, decide_eq_true_eq] at hb
  obtain rfl | rfl := hb <;> revert h <;> decide

theorem printInt_ne_nil (d : Int) : printInt d ≠ [] := by
  simp [printInt_eq_append, printNat_ne_nil]

theorem tokens_printInstr_addx (d : Int) : tokens (printInstr (.addx d)) = [addxBytes, printInt d] := by
  rw [printInstr, tokens_append (by decide) (by decide) rfl, tokens_cons_blank (by decide),
    tokens_single (printInt_ne_nil d) (fun b hb => isBlank_eq_false_of_le (le_toNat_of_mem_printInt hb))]

theorem decodeMagnitude_printNat {negative : Bool} {n : Nat} {d : Int} (hwf : (Instr.addx d).wf = true)
    (hd : d = if negative then -(n : Int) else n) : decodeMagnitude negative (printNat n) = .ok (.addx d) := by
  have hvalue : signedValue negative (printNat n) = d := by rw [signedValue, digitsValue_printNat, hd]
  rw [decodeMagnitude_ok_iff, hvalue]
  exact ⟨⟨printNat_ne_nil n, fun _ => isDigit_of_mem_printNat⟩, (wf_addx_iff d).mp hwf, rfl⟩

theorem decodeOperand_printInt {d : Int} (h : (Instr.addx d).wf = true) :
    decodeOperand (printInt d) = .ok (.addx d) := by
  rw [decodeOperand_ok_iff, printInt]
  split
  case isTrue hneg => exact .inr ⟨_, rfl, decodeMagnitude_printNat h (by rw [if_pos rfl]; omega)⟩
  case isFalse hneg => exact .inl (decodeMagnitude_printNat h (by rw [if_neg Bool.false_ne_true]; omega))

theorem decodeLine_printInstr {i : Instr} (h : i.wf = true) : decodeLine (printInstr i) = .ok i := by
  cases i with
  | noop => exact decodeLine_noop (tokens_single (by decide) (by decide))
  | addx d => rw [decodeLine_addx (tokens_printInstr_addx d), decodeOperand_printInt h]

/-- Settles O37: the digits are those of the operand's magnitude, and the spelling has exactly the tokens the decoder
accepts. -/
theorem printThenDecodeLine : Obligations.PrintThenDecodeLine := by
  refine ⟨rfl, fun d => ⟨printNat d.natAbs, ?_, printNat_ne_nil _, fun _ => isDigit_of_mem_printNat,
    digitsValue_printNat _, printNat_eq_zero_of_head?⟩, fun i => decodeLine_printInstr,
    fun line i h => decodeLine_printInstr (decodeLine_wf h)⟩
  rw [printInstr, printInt_eq_append]

/-! ## The text of a program (R39, R40, R55) -/

theorem le_toNat_of_mem_printInstr {i : Instr} {b : Byte} (hb : b ∈ printInstr i) : 0x20 ≤ b.toNat := by
  cases i with
  | noop => exact (by decide : ∀ b ∈ noopBytes, 0x20 ≤ b.toNat) b hb
  | addx d =>
    obtain hb | hb := List.mem_append.mp hb
    · exact (by decide : ∀ b ∈ addxBytes, 0x20 ≤ b.toNat) b hb
    · obtain rfl | hb := List.mem_cons.mp hb
      · decide
      · exact Nat.le_of_succ_le (le_toNat_of_mem_printInt hb)

/-- No control character is printed, so a printed instruction is one line. -/
theorem not_mem_printInstr {b : Byte} (hb : b.toNat < 0x20) (i : Instr) : b ∉ printInstr i :=
  fun h => absurd (le_toNat_of_mem_printInstr h) (Nat.not_le.mpr hb)

theorem splitLines_printProgram (p : Memory) : splitLines (printProgram p) = p.map printInstr := by
  induction p with
  | nil => rfl
  | cons i p ih =>
    have hlf : lf ∉ printInstr i := not_mem_printInstr (by decide) i
    have hcr : (printInstr i).getLast? ≠ some cr := fun h =>
      not_mem_printInstr (by decide) i (List.mem_of_getLast? h)
    have hcons : printProgram (i :: p) = printInstr i ++ lf :: printProgram p := by
      simp [printProgram]
    rw [hcons, splitLines_lf_terminated hlf hcr, ih, List.map_cons]

/-- Settles O38: the lines of the printed text are the instructions printed, and each decodes to its instruction. -/
theorem printThenLoadProgram : Obligations.PrintThenLoadProgram := by
  intro p hp
  have hentries : ∀ i ∈ p, i.wf = true := by
    rw [Memory.wf, Bool.and_eq_true, List.all_eq_true] at hp
    exact hp.1
  rw [loadText, decodeAll_ok_iff, splitLines_printProgram, List.forall₂_map_left_iff, List.forall₂_same]
  exact fun i hi => decodeLine_printInstr (hentries i hi)

end Sys2Proof

/-! PROOFS. The statements about the step and the retire (40_step_and_retire.md): cost and effect, one step and one
tick, the tick-level step, the register timeline, runs by steps and by ticks, the run status and the block's outputs. -/

namespace Sys2Proof.Machine

/-! ## Cost and effect (R57, R58) -/

/-- Settles O1: the cost reads the constructor alone. -/
theorem costOfEachInstruction : Obligations.CostOfEachInstruction :=
  ⟨rfl, fun _ => rfl, rfl⟩

theorem signed32_wrap32_congr (i : Int) : (signed32 (wrap32 i) - i) % 2 ^ 32 = 0 := by
  rw [signed32_wrap32]
  exact Int.emod_eq_zero_of_dvd Int.dvd_bmod_sub_self

/-- Settles O2: the effect of an AddX is the exact sum narrowed to the register. -/
theorem effectAddsAndWraps : Obligations.EffectAddsAndWraps := by
  refine ⟨fun _ => rfl, fun d v => ⟨?low, ?high, signed32_wrap32_congr _⟩, fun d v => signed32_wrap32_of_range⟩
  case low => exact (signed32_bounds _).1
  case high => exact (signed32_bounds _).2

/-! ## The step from an instruction boundary (R59, R60, R75, R84) -/

theorem raise_eq (s : State) : s.raiseInvalidState = { s with err := 1#1, errCode := 2#2 } := rfl

/-- From a boundary a retire leaves the phase where it is. -/
theorem retire_of_boundary {s : State} (h : s.phase = 0#1) (c : Nat) (v : Word) :
    s.retire c v = { s with cycle := s.cycle + BitVec.ofNat 64 c, reg := v, pc := s.pc + 1#32 } := by
  rw [State.retire, ← h]

/-- Settles O9: at N the fetch faults before anything is written but the error output, and below N it finds an entry. -/
theorem haltedMachineRaisesInvalidState : Obligations.HaltedMachineRaisesInvalidState := by
  refine ⟨fun s p hp hn => ?halted, fun s p hp hlt => ?allowed⟩
  case halted =>
    simp only [serve, step_halted hp hn.ge, tick_halted hp hn.ge, raise_eq, finishRun_fault, and_self]
  case allowed =>
    have hstep := step_next hp (List.getElem?_eq_getElem hlt)
    exact ⟨_, hstep, by rw [serve, hstep, finishRun_next]⟩

/-- Settles O10: a step is one retire, and at N it faults. -/
theorem stepAdvancesOneInstruction : Obligations.StepAdvancesOneInstruction := by
  refine ⟨fun s p i hp hi h0 => ?_, fun s p hp hn => ⟨_, step_halted hp hn.ge⟩⟩
  rw [step_next hp hi, retire_of_boundary h0]

/-! ## The tick within an instruction (R70, R71) -/

theorem elapse_of_boundary {s : State} (h : s.phase = 0#1) : s.elapse = { s with phase := 1#1 } := by
  rw [State.elapse, h]
  rfl

section
variable {s : State} {p : Memory} {i : Instr} {d : Int}

theorem tick_retire (hp : s.program = some p) (hi : p[s.pc.toNat]? = some i) (hc : s.phase.toNat + 1 = cost i) :
    tick s = .next (s.retire (cost i) (effect i s.reg)) := by
  rw [tick_next hp hi, if_pos hc]

theorem tick_elapse (hp : s.program = some p) (hi : p[s.pc.toNat]? = some i) (hc : s.phase.toNat + 1 ≠ cost i) :
    tick s = .next s.elapse := by
  rw [tick_next hp hi, if_neg hc]

/-- The one tick of a NoOp. -/
theorem tick_noop (hp : s.program = some p) (hi : p[s.pc.toNat]? = some .noop) (h0 : s.phase = 0#1) :
    tick s = .next (s.retire (cost .noop) (effect .noop s.reg)) :=
  tick_retire hp hi (by rw [h0]; rfl)

/-- The first tick of an AddX. -/
theorem tick_addx_first (hp : s.program = some p) (hi : p[s.pc.toNat]? = some (.addx d)) (h0 : s.phase = 0#1) :
    tick s = .next { s with phase := 1#1 } := by
  rw [tick_elapse hp hi (by simp [h0, cost]), elapse_of_boundary h0]

/-- The second tick of an AddX. -/
theorem tick_addx_second (hp : s.program = some p) (hi : p[s.pc.toNat]? = some (.addx d)) (h1 : s.phase = 1#1) :
    tick s = .next (s.retire (cost (.addx d)) (effect (.addx d) s.reg)) :=
  tick_retire hp hi (by rw [h1]; rfl)

/-- From a boundary the ticks of an instruction end in its retire. -/
theorem ticks_cost (hp : s.program = some p) (hi : p[s.pc.toNat]? = some i) (h0 : s.phase = 0#1) :
    ticks (cost i) s = .next (s.retire (cost i) (effect i s.reg)) := by
  cases i with
  | noop => exact ticks_succ_of_next (tick_noop hp hi h0) 0
  | addx d =>
    have hsecond := tick_addx_second (s := { s with phase := 1#1 }) hp hi rfl
    exact (ticks_succ_of_next (tick_addx_first hp hi h0) 1).trans (ticks_succ_of_next hsecond 0)

/-- The ticks of an instruction are its step. -/
theorem ticks_cost_eq_step (hp : s.program = some p) (hi : p[s.pc.toNat]? = some i) (h0 : s.phase = 0#1) :
    ticks (cost i) s = step s := by
  rw [ticks_cost hp hi h0, step_next hp hi]

/-- Fewer ticks than the instruction costs, but at least one, leave the machine in the middle of an AddX. -/
theorem ticks_inside_instr {n : Nat} (hp : s.program = some p) (hi : p[s.pc.toNat]? = some i) (h0 : s.phase = 0#1)
    (hpos : 0 < n) (hn : n < cost i) : ticks n s = .next { s with phase := 1#1 } := by
  cases i with
  | noop => exact absurd hpos (Nat.not_lt.mpr (Nat.le_of_lt_succ hn))
  | addx d =>
    obtain rfl : n = 1 := Nat.le_antisymm (Nat.le_of_lt_succ hn) hpos
    exact ticks_succ_of_next (tick_addx_first hp hi h0) 0

end

/-- Settles O12: a tick retires or elapses as the phase says, and from a boundary the cost is the number of ticks. -/
theorem tickExecutesOneCycle : Obligations.TickExecutesOneCycle := by
  refine ⟨fun s p i hp hi _ => ⟨tick_retire hp hi, tick_elapse hp hi⟩, fun s p hp hn => ⟨_, tick_halted hp hn.ge⟩,
    fun s p hp hi h0 => ⟨_, tick_noop hp hi h0, rfl⟩, fun s p d hp hi h0 => ⟨tick_addx_first hp hi h0, ?_⟩⟩
  exact ⟨_, ticks_cost hp hi h0, rfl, rfl⟩

/-! ## The tick-level step (R76) -/

theorem pc_succ_ne (pc : Pc) : pc + 1#32 ≠ pc := by
  simp

theorem tickUntilRetire_of_moved {p0 : Pc} {s t : State} (h : tick s = .next t) (hpc : t.pc ≠ p0) (n : Nat) :
    tickUntilRetire p0 (n + 1) s = .next t := by
  simp [tickUntilRetire, h, hpc]

theorem tickUntilRetire_of_same {p0 : Pc} {s t : State} (h : tick s = .next t) (hpc : t.pc = p0) (n : Nat) :
    tickUntilRetire p0 (n + 1) s = tickUntilRetire p0 n t := by
  simp [tickUntilRetire, h, hpc]

theorem tickStep_of_fault {s : State} {r : Fault} (h : tick s = .fault r) : tickStep s = .fault r := by
  simp [tickStep, Config.maxCost, tickUntilRetire, h]

theorem tickStep_of_refused {s : State} {r : Refusal} (h : tick s = .refused r) : tickStep s = .refused r := by
  simp [tickStep, Config.maxCost, tickUntilRetire, h]

/-- A tick that moves the pc is all of the tick-level step. -/
theorem tickStep_of_moved {s t : State} (h : tick s = .next t) (hpc : t.pc ≠ s.pc) : tickStep s = .next t :=
  tickUntilRetire_of_moved h hpc 1

/-- From a boundary the tick-level step takes the ticks the instruction costs. -/
theorem tickStep_next {s : State} {p : Memory} {i : Instr} (hp : s.program = some p) (hi : p[s.pc.toNat]? = some i)
    (h0 : s.phase = 0#1) : tickStep s = .next (s.retire (cost i) (effect i s.reg)) := by
  cases i with
  | noop => exact tickStep_of_moved (tick_noop hp hi h0) (pc_succ_ne s.pc)
  | addx d =>
    have hsecond := tick_addx_second (s := { s with phase := 1#1 }) hp hi rfl
    exact (tickUntilRetire_of_same (tick_addx_first hp hi h0) rfl 1).trans
      (tickUntilRetire_of_moved hsecond (pc_succ_ne s.pc) 0)

theorem tickStep_halted {s : State} {p : Memory} (hp : s.program = some p) (hn : p.length ≤ s.pc.toNat) :
    tickStep s = .fault (.invalidStateError s.raiseInvalidState) :=
  tickStep_of_fault (tick_halted hp hn)

theorem tick_noProgram {s : State} (hp : s.program = none) : tick s = .refused .noProgram := by
  rw [tick, fetch_noProgram hp]

/-- From a boundary the tick-level step is the step, in each of the step's outcomes. -/
theorem tickStep_eq_step {s : State} (h0 : s.phase = 0#1) : tickStep s = step s := by
  obtain ⟨hp, h⟩ | ⟨p, hp, hn, h⟩ | ⟨p, i, hp, hi, h⟩ := step_cases s <;> rw [h]
  · exact tickStep_of_refused (tick_noProgram hp)
  · exact tickStep_halted hp hn
  · exact tickStep_next hp hi h0

/-- Settles O13: from a boundary by the outcomes of a step, and from the middle of an AddX by its second tick. -/
theorem tickLevelStepIsTheStep : Obligations.TickLevelStepIsTheStep := by
  refine ⟨fun s => tickStep_eq_step, fun s p d hp hi h1 => ?_, fun s p hp hn => ⟨_, tickStep_halted hp hn.ge⟩⟩
  have htick := tick_addx_second hp hi h1
  rw [tickStep_of_moved htick (pc_succ_ne s.pc), step_next hp hi, htick]
  exact ⟨rfl, rfl, _, rfl, rfl, rfl⟩

/-! ## The occupancy intervals and the timeline (R62, R63, R64, R65) -/

theorem cycleAfter_mono (p : Memory) : Monotone (cycleAfter p) := fun _ _ h =>
  ((List.take_sublist_take_left h).map cost).sum_le_sum fun _ _ => Nat.zero_le _

theorem cycleAfter_succ_le_of_lt {p : Memory} {j k : Nat} (h : j < k) : cycleAfter p (j + 1) ≤ cycleAfter p k :=
  cycleAfter_mono p h

/-- A cycle before C_n lies in the interval of one of the first `n` instructions. -/
theorem exists_interval {p : Memory} {c n : Nat} (hc : c < cycleAfter p n) :
    ∃ k < n, cycleAfter p k ≤ c ∧ c < cycleAfter p (k + 1) := by
  induction n with
  | zero => exact absurd hc (Nat.not_lt_zero c)
  | succ n ih =>
    obtain hlt | hge := Nat.lt_or_ge c (cycleAfter p n)
    · obtain ⟨k, hk, h⟩ := ih hlt
      exact ⟨k, Nat.lt_succ_of_lt hk, h⟩
    · exact ⟨n, Nat.lt_succ_self n, hge, hc⟩

/-- Two intervals that share a cycle are the same. -/
theorem interval_unique {p : Memory} {c j k : Nat} (hj : cycleAfter p j ≤ c) (hj' : c < cycleAfter p (j + 1))
    (hk : cycleAfter p k ≤ c) (hk' : c < cycleAfter p (k + 1)) : j = k := by
  obtain h | h | h := Nat.lt_trichotomy j k
  · exact absurd (hj'.trans_le ((cycleAfter_succ_le_of_lt h).trans hk)) (Nat.lt_irrefl c)
  · exact h
  · exact absurd (hk'.trans_le ((cycleAfter_succ_le_of_lt h).trans hj)) (Nat.lt_irrefl c)

/-- In each of its cycles an instruction shows the register from before it. -/
theorem val_cycleAfter_add {p : Memory} {k j : Nat} {i : Instr} (hi : p[k]? = some i) (hj : j < cost i) :
    val p (cycleAfter p k + j) = some (regAfter p k) := by
  have hbefore : (timelineFrom 1#32 (p.take k)).length = cycleAfter p k := timelineFrom_length _ _
  rw [val, timeline_at hi, List.getElem?_append_right (hbefore ▸ Nat.le_add_right _ _), hbefore,
    Nat.add_sub_cancel_left, List.getElem?_append_left (by simpa using hj), List.getElem?_replicate_of_lt hj]

theorem val_of_interval {p : Memory} {k c : Nat} (hk : k < p.length) (hc : cycleAfter p k ≤ c)
    (hc' : c < cycleAfter p (k + 1)) : val p c = some (regAfter p k) := by
  have hi : p[k]? = some p[k] := List.getElem?_eq_getElem hk
  obtain ⟨j, rfl⟩ := Nat.exists_eq_add_of_le hc
  rw [cycleAfter_succ hi] at hc'
  exact val_cycleAfter_add hi (Nat.lt_of_add_lt_add_left hc')

theorem exists_val_of_lt {p : Memory} {c : Nat} (hc : c < totalCycles p) : ∃ v, val p c = some v :=
  ⟨_, List.getElem?_eq_getElem ((timeline_length p).symm ▸ hc)⟩

/-- Settles O30: the recurrences, the run's own counters, and the timeline cut at each instruction. -/
theorem timelineShowsTheValueBefore : Obligations.TimelineShowsTheValueBefore := by
  refine ⟨fun p => ⟨rfl, rfl⟩, fun p k hp hk => ?steps, fun p k i hi => ⟨cycleAfter_succ hi, regAfter_succ hi⟩,
    fun p k c => val_of_interval, fun p c hc => ?interval⟩
  case steps =>
    obtain ⟨t, ht, -, rfl, hinv⟩ := steps_install hp hk
    exact ⟨t, ht, hinv.regIsSum, hinv.cycleIsSum⟩
  case interval =>
    obtain ⟨k, hk, hlo, hhi⟩ := exists_interval hc
    exact ⟨k, ⟨hk, hlo, hhi⟩, fun j _ hj hj' => interval_unique hj hj' hlo hhi⟩

theorem totalCycles_cons (i : Instr) (p : Memory) : totalCycles (i :: p) = cost i + totalCycles p := by
  simp [totalCycles, cycleAfter]

/-- T counts a NoOp once and an AddX twice. -/
theorem totalCycles_eq_count (p : Memory) :
    totalCycles p = p.countP (fun i => i == .noop) + 2 * p.countP (fun i => i != .noop) := by
  induction p with
  | nil => rfl
  | cons i p ih =>
    rw [totalCycles_cons, ih]
    cases i with
    | noop => rw [List.countP_cons_of_pos rfl, List.countP_cons_of_neg (by decide), cost]; omega
    | addx d => rw [List.countP_cons_of_neg (by simp), List.countP_cons_of_pos (by simp), cost]; omega

/-- Settles O31: counting costs, each of them 1 or 2. -/
theorem totalCycleCount : Obligations.TotalCycleCount := fun p =>
  ⟨totalCycles_eq_count p, by simpa [totalCycles] using length_le_cycleAfter p p.length,
    by simpa [totalCycles] using cycleAfter_le_double p p.length, cycleAfter_eq_zero_iff le_rfl⟩

/-! ## Runs by steps and by ticks (R66, R72, R74) -/

/-- What every step keeps holds after the steps of a run. -/
theorem steps_induction {P : State → Prop} (hstep : ∀ s t, P s → step s = .next t → P t) {k : Nat} {s t : State}
    (hs : P s) (h : steps k s = .next t) : P t := by
  induction k generalizing s with
  | zero => cases h; exact hs
  | succ k ih =>
    cases hnext : step s with
    | next u => exact ih (hstep s u hs hnext) (steps_succ_of_next hnext k ▸ h)
    | fault r => simp [steps, hnext] at h
    | refused r => simp [steps, hnext] at h

theorem step_phase {s t : State} (h : step s = .next t) : t.phase = 0#1 := by
  obtain ⟨p, i, -, -, rfl⟩ := retire_of_step_eq_next h
  rfl

theorem step_err {s t : State} (h : step s = .next t) : t.err = s.err := by
  obtain ⟨p, i, -, -, rfl⟩ := retire_of_step_eq_next h
  rfl

/-- Steps from reset end at an instruction boundary. -/
theorem steps_install_phase {p : Memory} {k : Nat} {t : State} (h : steps k (State.install p) = .next t) :
    t.phase = 0#1 :=
  steps_induction (P := fun s => s.phase = 0#1) (fun _ _ _ => step_phase) rfl h

/-- Steps that are allowed raise nothing. -/
theorem steps_install_err {p : Memory} {k : Nat} {t : State} (h : steps k (State.install p) = .next t) :
    t.err = 0#1 :=
  steps_induction (P := fun s => s.err = 0#1) (fun _ _ hs hstep => (step_err hstep).trans hs) rfl h

theorem raise_not_endsRun (s : State) : ¬ s.raiseInvalidState.endsRun := by
  rintro ⟨-, herr⟩
  cases herr

/-- N steps from reset end at N, with the counters of the whole program. -/
theorem steps_length {p : Memory} (hp : p.wf = true) :
    ∃ t, steps p.length (State.install p) = .next t ∧ t.program = some p ∧ t.endsRun ∧
      t.reg = regAfter p p.length ∧ t.cycle.toNat = totalCycles p ∧ t.pc.toNat = p.length := by
  obtain ⟨t, ht, hprog, hpc, hinv⟩ := steps_install hp le_rfl
  have hstatus : t.status = some .halted := by rw [status_eq_statusOf hprog, statusOf_halted _ hpc]
  refine ⟨t, ht, hprog, ⟨hstatus, steps_install_err ht⟩, ?_, ?_, hpc⟩
  · rw [hinv.regIsSum, hpc]
  · rw [hinv.cycleIsSum, hpc, totalCycles]

/-- Settles O29: `k <= N` steps retire the first `k` instructions, and the step after the last faults. -/
theorem everyRunTerminates : Obligations.EveryRunTerminates := by
  intro p hp
  obtain ⟨t, ht, hprog, hend, hreg, hcycle, hpc⟩ := steps_length hp
  refine ⟨fun k hk => ?allowed, ⟨t, ht, hend, hreg, hcycle, hpc⟩, fun c => exists_val_of_lt, fun k hk => ?beyond⟩
  case allowed =>
    obtain ⟨u, hu, -⟩ := steps_install hp hk
    exact ⟨u, hu⟩
  case beyond =>
    obtain ⟨m, rfl⟩ := Nat.exists_eq_add_of_lt hk
    refine ⟨t.raiseInvalidState, ?_, raise_not_endsRun t⟩
    rw [Nat.add_assoc, steps_add_of_next ht, steps_succ_of_fault (step_halted hprog hpc.ge)]

/-- C_k ticks from reset are k steps: each further step is the ticks its instruction costs. -/
theorem ticks_cycleAfter {p : Memory} {k : Nat} (hp : p.wf = true) (hk : k ≤ p.length) :
    ticks (cycleAfter p k) (State.install p) = steps k (State.install p) := by
  induction k with
  | zero => rfl
  | succ k ih =>
    obtain ⟨t, ht, hprog, rfl, -⟩ := steps_install hp (Nat.le_of_succ_le hk)
    have hi : p[t.pc.toNat]? = some p[t.pc.toNat] := List.getElem?_eq_getElem hk
    have hticks := (ih (Nat.le_of_succ_le hk)).trans ht
    have hnext := step_next hprog hi
    calc ticks (cycleAfter p (t.pc.toNat + 1)) (State.install p)
      _ = ticks (cost p[t.pc.toNat]) t := by rw [cycleAfter_succ hi, ticks_add_of_next hticks]
      _ = step t := ticks_cost_eq_step hprog hi (steps_install_phase ht)
      _ = steps 1 t := by rw [steps_succ_of_next hnext, steps_zero, hnext]
      _ = steps (t.pc.toNat + 1) (State.install p) := (steps_add_of_next ht 1).symm

theorem outputs_eq {s : State} {p : Memory} (hp : s.program = some p) :
    s.outputs = some
      { regOut := s.reg, cycleOut := s.cycle, pcOut := s.pc, phaseOut := s.phase, nowOut := s.now,
        status := (statusOf s.pc s.phase p.length).code, err := s.err, errCode := s.errCode } := by
  rw [State.outputs, status_eq_statusOf hp]
  rfl

/-- In the middle of an instruction a machine has the outputs of the boundary before it but for `phase`, `now` and
`status`. -/
theorem outputs_mid_instr {s : State} {p : Memory} (hp : s.program = some p) (hlt : s.pc.toNat < p.length) :
    ({ s with phase := 1#1 } : State).outputs =
      s.outputs.map fun o =>
        { o with phaseOut := 1#1, nowOut := s.cycle + 1#64, status := Status.running.code } := by
  have hrunning : statusOf s.pc 1#1 p.length = .running := statusOf_running hlt.ne (.inr (by decide))
  rw [outputs_eq hp, outputs_eq (s := { s with phase := 1#1 }) hp, hrunning]
  rfl

/-- Settles O14: one instruction's ticks are its step, hence so are those of the first `k` instructions. -/
theorem ticksRefineTheStep : Obligations.TicksRefineTheStep := by
  refine ⟨fun s p i hp hi h0 => ⟨ticks_cost_eq_step hp hi h0, ⟨_, step_next hp hi, rfl⟩, fun n t hpos hn ht => ?_⟩,
    fun p k => ticks_cycleAfter, fun s p hp hlt _ => outputs_mid_instr hp hlt⟩
  rw [ticks_inside_instr hp hi h0 hpos hn] at ht
  cases ht
  rfl

namespace RunInv

variable {p : Memory} {s : State}

/-- `now` does not overflow in a run (R69). -/
theorem now_toNat (h : RunInv p s) : s.now.toNat = s.cycle.toNat + s.phase.toNat := by
  have hcycle := h.cycle_le
  have hphase := s.phase.isLt
  rw [State.now, BitVec.toNat_add, BitVec.toNat_setWidth]
  omega

theorem val_cycle_add_phase (h : RunInv p s) (hlt : s.pc.toNat < p.length) :
    val p (s.cycle.toNat + s.phase.toNat) = some s.reg := by
  have hi : p[s.pc.toNat]? = some p[s.pc.toNat] := List.getElem?_eq_getElem hlt
  rw [h.cycleIsSum, h.regIsSum]
  exact val_cycleAfter_add hi (h.phaseInInstr _ hi)

/-- At N every cycle of the run has elapsed, so before the last one there is an instruction at the pc. -/
theorem pc_lt_of_cycle_lt (h : RunInv p s) (hlt : s.cycle.toNat + s.phase.toNat < totalCycles p) :
    s.pc.toNat < p.length := by
  refine Nat.lt_of_le_of_ne h.pcInRange fun hn => ?_
  rw [h.cycleIsSum, hn] at hlt
  exact Nat.not_lt.mpr (Nat.le_add_right _ _) hlt

/-- A tick that is allowed executes one cycle, whether it retires its instruction or not (R71). -/
theorem tick_executes_next_cycle (h : RunInv p s) (hp : s.program = some p) (hlt : s.pc.toNat < p.length) :
    ∃ t, tick s = .next t ∧ t.program = some p ∧ RunInv p t ∧
      t.cycle.toNat + t.phase.toNat = s.cycle.toNat + s.phase.toNat + 1 := by
  have hi : p[s.pc.toNat]? = some p[s.pc.toNat] := List.getElem?_eq_getElem hlt
  by_cases hc : s.phase.toNat + 1 = cost p[s.pc.toNat]
  · refine ⟨_, tick_retire hp hi hc, (retire_program ..).trans hp, h.retire hi, ?_⟩
    rw [h.retire_cycle_toNat, ← hc]
    rfl
  · have h0 := (phase_eq_zero_of_not_last (h.phaseInInstr _ hi) hc).1
    refine ⟨_, tick_elapse hp hi hc, (elapse_program s).trans hp, h.elapse hi hc, ?_⟩
    rw [elapse_of_boundary h0, h0]
    rfl

end RunInv

/-- The invariant, packaged along a run by ticks: `n` ticks from reset execute the cycles below `n`. -/
theorem ticks_install {p : Memory} {n : Nat} (hp : p.wf = true) (hn : n ≤ totalCycles p) :
    ∃ t, ticks n (State.install p) = .next t ∧ t.program = some p ∧ RunInv p t ∧
      t.cycle.toNat + t.phase.toNat = n := by
  induction n with
  | zero => exact ⟨_, rfl, rfl, .resetOn_loaded hp, rfl⟩
  | succ n ih =>
    obtain ⟨t, ht, hprog, hinv, rfl⟩ := ih (Nat.le_of_succ_le hn)
    obtain ⟨u, hu, huprog, huinv, hnow⟩ := hinv.tick_executes_next_cycle hprog (hinv.pc_lt_of_cycle_lt hn)
    exact ⟨u, by rw [ticks_add_of_next ht, ticks_succ_of_next hu, ticks_zero], huprog, huinv, hnow⟩

/-- Settles O32: the register before a tick is the value before the instruction at the pc, which the timeline shows in
each of its cycles. -/
theorem regBeforeTickIsTheTimeline : Obligations.RegBeforeTickIsTheTimeline := by
  refine ⟨fun p s h => h.val_cycle_add_phase, fun p n hp hn => ?_⟩
  obtain ⟨t, ht, -, hinv, rfl⟩ := ticks_install hp hn.le
  exact ⟨t, ht, hinv.now_toNat, hinv.val_cycle_add_phase (hinv.pc_lt_of_cycle_lt hn)⟩

/-! ## The run status and the outputs of a machine (R68, R69) -/

/-- Settles O21: the record of outputs is written field by field, and `now` does not overflow in a run. -/
theorem outputsAreProjections : Obligations.OutputsAreProjections := by
  refine ⟨fun s p hp => ⟨_, outputs_eq hp, rfl, rfl, rfl, rfl, rfl, ?_, rfl, rfl⟩, fun p s h => h.now_toNat⟩
  rw [status_eq_statusOf hp]
  rfl

theorem statusOf_ne_halted {pc : Pc} {n : Nat} (phase : BitVec 1) (h : pc.toNat ≠ n) :
    statusOf pc phase n = .notStarted ∨ statusOf pc phase n = .running := by
  by_cases h0 : pc = 0#32 ∧ phase = 0#1
  · exact .inl (statusOf_notStarted h h0.1 h0.2)
  · exact .inr (statusOf_running h (not_and_or.mp h0))

/-- Raising the error moves neither the pc nor the phase, so the status stays. -/
theorem raise_status (s : State) : s.raiseInvalidState.status = s.status := rfl

theorem pc_length_of_halted {s : State} {p : Memory} (hp : s.program = some p) (h : s.status = some .halted) :
    s.pc.toNat = p.length := by
  by_contra hn
  rw [status_eq_statusOf hp, Option.some.injEq] at h
  obtain h' | h' := statusOf_ne_halted s.phase hn <;> rw [h'] at h <;> cases h

namespace RunInv

variable {p : Memory} {s : State} {i : Instr}

/-- After a retire a machine is Running or Halted, since the pc has moved off 0 (R68). -/
theorem retire_status (h : RunInv p s) (hp : s.program = some p) (hi : p[s.pc.toNat]? = some i) (c : Nat) (v : Word) :
    (s.retire c v).status = some (if s.pc.toNat + 1 < p.length then .running else .halted) := by
  have hpc := h.retire_pc_toNat hi c v
  have hle : s.pc.toNat + 1 ≤ p.length := pc_lt_length hi
  rw [status_eq_statusOf ((retire_program ..).trans hp)]
  split
  case isTrue hlt =>
    have hmoved : (s.retire c v).pc ≠ 0#32 := fun h0 =>
      Nat.succ_ne_zero _ (hpc.symm.trans (congrArg BitVec.toNat h0))
    rw [statusOf_running (hpc ▸ hlt.ne) (.inl hmoved)]
  case isFalse hge => rw [statusOf_halted _ (hpc.trans (Nat.le_antisymm hle (Nat.not_lt.mp hge)))]

/-- Within an instruction a machine is Running. -/
theorem elapse_status (h : RunInv p s) (hp : s.program = some p) (hi : p[s.pc.toNat]? = some i)
    (hc : s.phase.toNat + 1 ≠ cost i) : s.elapse.status = some .running := by
  have hphase : s.elapse.phase ≠ 0#1 := by rw [h.elapse_phase_eq_one hi hc]; decide
  rw [status_eq_statusOf ((elapse_program s).trans hp), elapse_pc, statusOf_running (pc_lt_length hi).ne (.inr hphase)]

theorem retire_status_ne_notStarted (h : RunInv p s) (hp : s.program = some p) (hi : p[s.pc.toNat]? = some i)
    (c : Nat) (v : Word) : (s.retire c v).status ≠ some .notStarted := by
  rw [h.retire_status hp hi]
  split <;> simp

end RunInv

/-- A step request does not bring a machine back to NotStarted. -/
theorem serve_stepReq_ne_notStarted {s : State} (hs : s.Inv) (hne : s.status ≠ some .notStarted) :
    (serve .stepReq s).1.status ≠ some .notStarted := by
  obtain ⟨-, h⟩ | ⟨_, -, -, h⟩ | ⟨p, i, hp, hi, h⟩ := step_cases s <;> rw [serve, h]
  · exact hne
  · exact hne
  · exact ((inv_iff_runInv hp).mp hs).retire_status_ne_notStarted hp hi _ _

/-- A tick request does not bring a machine back to NotStarted. -/
theorem serve_tickReq_ne_notStarted {s : State} (hs : s.Inv) (hne : s.status ≠ some .notStarted) :
    (serve .tickReq s).1.status ≠ some .notStarted := by
  obtain ⟨-, h⟩ | ⟨_, -, -, h⟩ | ⟨p, i, hp, hi, -, h⟩ | ⟨p, i, hp, hi, hc, h⟩ := tick_cases s <;> rw [serve, h]
  · exact hne
  · exact hne
  · exact ((inv_iff_runInv hp).mp hs).retire_status_ne_notStarted hp hi _ _
  · rw [finishRun_next, ((inv_iff_runInv hp).mp hs).elapse_status hp hi hc]
    simp

/-- Settles O19: a retire moves the pc off 0 for good, and of the requests only rst and the loads put it back. -/
theorem statusMovesForward : Obligations.StatusMovesForward := by
  refine ⟨fun p s t hinv hp h => ?step, fun s p hp hhalted => ?halted, fun r s hs hne hback => ?back⟩
  case step =>
    obtain ⟨q, i, hq, hi, rfl⟩ := retire_of_step_eq_next h
    obtain rfl : p = q := Option.some.inj (hp.symm.trans hq)
    refine ⟨?_, hinv.retire_status hp hi _ _⟩
    rw [status_eq_statusOf hp, Option.some.injEq, Option.some.injEq]
    exact statusOf_ne_halted _ (pc_lt_length hi).ne
  case halted =>
    rw [serve, step_halted hp (pc_length_of_halted hp hhalted).ge, finishRun_fault]
    exact ⟨rfl, (raise_status s).trans hhalted⟩
  case back =>
    cases r with
    | loadText text => exact .inr (.inl ⟨text, rfl⟩)
    | loadWords words => exact .inr (.inr ⟨words, rfl⟩)
    | rst => exact .inl rfl
    | stepReq => exact absurd hback (serve_stepReq_ne_notStarted hs hne)
    | tickReq => exact absurd hback (serve_tickReq_ne_notStarted hs hne)

/-! ## The load port's outputs (R69, R83) -/

/-- A load whose item `k` is the first that does not decode shows `k + 1` at the load port, in the text and the binary
form alike. -/
theorem finishLoad_first_error {α : Type} {decode : α → Except DecodeCause Instr} {quote : α → Offending} {xs : List α}
    {k : Nat} {x : α} {c : DecodeCause} (s : State) (hk : xs[k]? = some x) (hx : decode x = .error c)
    (hfirst : ∀ m < k, ∀ y, xs[m]? = some y → ∃ i, decode y = .ok i) :
    (s.finishLoad (decodeAll decode quote 1 xs)).1.decodeErr = 1#1 ∧
    (s.finishLoad (decodeAll decode quote 1 xs)).1.decodeLine = some (BitVec.ofNat 32 (k + 1)) := by
  have hload : decodeAll decode quote 1 xs = .error ⟨1 + k, quote x⟩ :=
    decodeAll_error_iff.mpr ⟨k, x, c, rfl, hk, hx, hfirst⟩
  rw [hload, Nat.add_comm 1 k]
  exact ⟨rfl, rfl⟩

/-- A load that succeeds shows no error at the load port. -/
theorem finishLoad_ok_outputs {verdict : Except DecodeError Memory} {p : Memory} (s : State) (h : verdict = .ok p)
    (hlen : p.length ≤ Config.maxProgramLength) :
    (s.finishLoad verdict).1.decodeErr = 0#1 ∧ (s.finishLoad verdict).1.decodeLine = none := by
  rw [h, State.finishLoad, if_pos hlen]
  exact ⟨rfl, rfl⟩

/-- A refused load leaves the store. -/
theorem finishLoad_store_of_refused {s : State} {verdict : Except DecodeError Memory} {e : Refusal}
    (h : (s.finishLoad verdict).2 = .refused e) : (s.finishLoad verdict).1.store = s.store := by
  obtain ⟨_, -, h'⟩ | ⟨_, -, -, h'⟩ | ⟨_, -, -, h'⟩ := finishLoad_cases s verdict <;> rw [h'] at h ⊢
  · cases h
  · cases h

/-- A refused request leaves the store. -/
theorem serve_store_of_refused {r : Request} {s : State} {e : Refusal} (h : (serve r s).2 = .refused e) :
    (serve r s).1.store = s.store := by
  cases r with
  | loadText text => exact finishLoad_store_of_refused h
  | loadWords words => exact finishLoad_store_of_refused h
  | rst => rfl
  | stepReq => exact serve_stepReq_store s
  | tickReq => exact serve_tickReq_store s

theorem decodeErr_eq_zero_iff (s : State) : s.decodeErr = 0#1 ↔ s.decodeLine = none := by
  unfold State.decodeErr State.decodeLine
  cases s.store <;> simp

/-- Settles O48: both forms end in the same loop, and what leaves the store leaves the load port's outputs. -/
theorem loadPortOutputs : Obligations.LoadPortOutputs := by
  refine ⟨fun s text k line c => finishLoad_first_error s, fun s words k w c => finishLoad_first_error s,
    fun s text p => finishLoad_ok_outputs s, fun s words p => finishLoad_ok_outputs s, fun r s hr => ?unchanged,
    decodeErr_eq_zero_iff, rfl⟩
  have hstore : (serve r s).1.store = s.store := by
    obtain rfl | rfl | rfl | ⟨e, he⟩ := hr
    · rfl
    · exact serve_stepReq_store s
    · exact serve_tickReq_store s
    · exact serve_store_of_refused he
  exact ⟨decodeErr_of_store hstore, decodeLine_of_store hstore⟩

end Sys2Proof.Machine

/-! PROOFS. The statements about the two instructions (41_instructions.md): the lines and words that stand for each, its
step, its ticks and its cycles on the timeline. -/

namespace Sys2Proof

/-! ## The lines of an instruction (R43 to R46) -/

/-- A line with any other tokens than the two accepted lists is refused. -/
theorem exists_error_of_tokens {line : List Byte} (hnoop : tokens line ≠ [noopBytes])
    (haddx : ∀ t, tokens line ≠ [addxBytes, t]) : ∃ c, decodeLine line = .error c := by
  cases h : decodeLine line with
  | error c => exact ⟨c, rfl⟩
  | ok i =>
    obtain ⟨ht, -⟩ | ⟨t, ht, -⟩ := decodeLine_ok_cases h
    · exact absurd ht hnoop
    · exact absurd ht (haddx t)

/-- A line that begins with another byte than a separator has a token. -/
theorem tokenEnds_of_tokens_eq_nil {line : List Byte} (h : tokens line = []) : tokenEnds line = true := by
  cases line with
  | nil => rfl
  | cons b bs =>
    rw [tokens] at h
    split at h
    case isTrue hb => exact hb
    case isFalse =>
      split at h
      · cases h
      · split at h <;> cases h

/-- A separator cuts a line in two, each with its own tokens. -/
theorem tokens_append_blank {sep : Byte} (hsep : isBlank sep = true) (a b : List Byte) :
    tokens (a ++ sep :: b) = tokens a ++ tokens b := by
  induction a with
  | nil => exact tokens_cons_blank hsep b
  | cons x a ih =>
    have hends : tokenEnds (a ++ sep :: b) = tokenEnds a := by
      cases a with
      | nil => exact hsep
      | cons y a => rfl
    rw [List.cons_append, tokens, tokens, hends, ih]
    split
    case isTrue => rfl
    case isFalse =>
      split
      case isTrue => rfl
      case isFalse hinside =>
        cases ht : tokens a with
        | cons t ts => rfl
        | nil => exact absurd (tokenEnds_of_tokens_eq_nil ht) hinside

/-- A printed operand is read as its sign and its digits. -/
theorem decodeOperand_printInt_eq (d : Int) :
    decodeOperand (printInt d) = decodeMagnitude (decide (d < 0)) (printNat d.natAbs) := by
  rw [printInt]
  split
  case isTrue hneg => simp [decodeOperand, hneg]
  case isFalse hneg =>
    obtain ⟨b, ds, hds⟩ := List.exists_cons_of_ne_nil (printNat_ne_nil d.natAbs)
    have hb : b ≠ minus := by
      rintro rfl
      exact absurd (isDigit_of_mem_printNat (hds ▸ List.mem_cons_self)) (by decide)
    simp [decodeOperand, hneg, hds, hb]

theorem signedValue_printNat (d : Int) : signedValue (decide (d < 0)) (printNat d.natAbs) = d := by
  rw [signedValue, digitsValue_printNat]
  split
  case isTrue hneg => have := of_decide_eq_true hneg; omega
  case isFalse hneg => have := mt decide_eq_true hneg; omega

/-- A printed operand stands for no other instruction, so out of range it stands for none (R44). -/
theorem exists_error_of_not_wf {d : Int} (h : (Instr.addx d).wf = false) :
    ∃ c, decodeLine (printInstr (.addx d)) = .error c := by
  rw [decodeLine_addx (tokens_printInstr_addx d)]
  cases hop : decodeOperand (printInt d) with
  | error c => exact ⟨c, rfl⟩
  | ok i =>
    have hwf := decodeOperand_wf hop
    rw [decodeOperand_printInt_eq, decodeMagnitude_ok_iff, signedValue_printNat] at hop
    obtain ⟨-, -, rfl⟩ := hop
    exact absurd hwf (by simp [h])

/-- Two operands are one too many (R46). -/
theorem exists_error_of_two_operands {a b s t : List Byte} (ha : tokens a = [s]) (hb : tokens b = [t]) :
    ∃ c, decodeLine (addxBytes ++ space :: (a ++ space :: b)) = .error c := by
  have htokens : tokens (addxBytes ++ space :: (a ++ space :: b)) = [addxBytes, s, t] := by
    rw [tokens_append_blank rfl, tokens_append_blank rfl, ha, hb]
    rfl
  exact exists_error_of_tokens (by simp [htokens]) (by simp [htokens])

end Sys2Proof

namespace Sys2Proof.Machine

/-! ## The step and the cycles of an instruction (R60, R63) -/

section
variable {s : State} {p : Memory} {k : Nat} {i : Instr}

/-- Retiring the last instruction leaves a machine Halted (R19). -/
theorem retire_status_of_last (hp : s.program = some p) (hwf : p.wf = true) (hlast : p.length = s.pc.toNat + 1)
    (c : Nat) (v : Word) : (s.retire c v).status = some .halted := by
  have hpc : (s.pc + 1#32).toNat = s.pc.toNat + 1 := pc_succ_toNat (length_le_of_wf hwf) (by omega)
  rw [status_eq_statusOf ((retire_program ..).trans hp), retire_pc,
    statusOf_halted _ (hpc.trans hlast.symm)]

/-- The first cycle of an instruction shows the register from before it. -/
theorem val_cycleAfter (hi : p[k]? = some i) : val p (cycleAfter p k) = some (regAfter p k) :=
  val_cycleAfter_add hi (cost_pos i)

end

/-- Settles O5: the NoOp's step is one retire of cost 1 that keeps the register, and so is its one tick. -/
theorem noopRule : Obligations.NoopRule := by
  refine ⟨decodeLine_printInstr (i := .noop) rfl, decodeWord_noop, rfl, rfl, Laws.EncodingMatchesRow.noop,
    fun s p hp hi h0 => ⟨?step, ?tick, fun t ht hwf hlast => ?last⟩,
    fun p k hi => ⟨val_cycleAfter hi, regAfter_succ hi⟩, ?operand, ⟨_, rfl, rfl, rfl, rfl, rfl⟩, rfl⟩
  case step => rw [step_next hp hi, retire_of_boundary h0]; rfl
  case tick => rw [tick_noop hp hi h0, step_next hp hi]
  case last =>
    rw [step_next hp hi] at ht
    cases ht
    exact retire_status_of_last hp hwf hlast _ _
  case operand => exact exists_error_of_tokens (by decide) (fun t h => by cases h)

/-- Settles O6: the AddX's step is one retire of cost 2, its second tick is that retire, and its two cycles show the
register from before it. -/
theorem addxRule : Obligations.AddxRule := by
  obtain ⟨-, -, hfields, -⟩ := encodedFields
  refine ⟨fun d => decodeLine_printInstr, fun d => exists_error_of_not_wf, ?missing,
    fun a b ⟨_, ha⟩ ⟨_, hb⟩ => exists_error_of_two_operands ha hb, fun d => ?word, fun d => decodeWord_encode,
    fun d => ⟨rfl, Laws.EncodingMatchesRow.addx d⟩, fun s p d hp hi h0 => ⟨?step, tick_addx_first hp hi h0⟩,
    fun s p d => tick_addx_second, fun p k d hi => ?cycles, fun p k d e hi he => ?backToBack, fun v => ?zero,
    by decide, ⟨_, rfl, rfl, rfl, rfl, rfl⟩, rfl, rfl⟩
  case missing => exact exists_error_of_tokens (by decide) (fun t h => by cases h)
  case word =>
    obtain ⟨-, -, hword⟩ := hfields d
    exact hword
  case step => rw [step_next hp hi, retire_of_boundary h0]; rfl
  case cycles =>
    refine ⟨val_cycleAfter hi, val_cycleAfter_add hi Nat.one_lt_two, regAfter_succ hi, fun hk => ?_⟩
    have hnext := val_cycleAfter (List.getElem?_eq_getElem hk)
    rwa [cycleAfter_succ hi] at hnext
  case backToBack =>
    have hreg : regAfter p (k + 1) = wrap32 (signed32 (regAfter p k) + d) := regAfter_succ hi
    rw [← hreg]
    exact ⟨val_cycleAfter he, val_cycleAfter_add he Nat.one_lt_two⟩
  case zero => rw [Int.add_zero, wrap32_signed32]

end Sys2Proof.Machine

/-! PROOFS. The statements about the errors and the observers (60_exceptions.md): the error kinds and who reports them, and
the Sampler and the Renderer, driven by steps and by ticks. -/

namespace Sys2Proof.Machine

/-! ## No instruction fails (R85) -/

theorem exists_tick_next {s : State} {p : Memory} {i : Instr} (hp : s.program = some p) (hi : p[s.pc.toNat]? = some i) :
    ∃ t, tick s = .next t := by
  by_cases hc : s.phase.toNat + 1 = cost i
  · exact ⟨_, tick_retire hp hi hc⟩
  · exact ⟨_, tick_elapse hp hi hc⟩

theorem step_fault_iff (s : State) : (∃ t, step s = .fault (.invalidStateError t)) ↔
    ∃ p, s.program = some p ∧ p.length ≤ s.pc.toNat := by
  constructor
  · rintro ⟨t, h⟩
    obtain ⟨p, hp, hn, -⟩ := raise_of_step_eq_fault h
    exact ⟨p, hp, hn⟩
  · rintro ⟨p, hp, hn⟩
    exact ⟨_, step_halted hp hn⟩

theorem tick_fault_iff (s : State) : (∃ t, tick s = .fault (.invalidStateError t)) ↔
    ∃ p, s.program = some p ∧ p.length ≤ s.pc.toNat := by
  constructor
  · rintro ⟨t, h⟩
    obtain ⟨p, hp, hn, -⟩ := raise_of_tick_eq_fault h
    exact ⟨p, hp, hn⟩
  · rintro ⟨p, hp, hn⟩
    exact ⟨_, tick_halted hp hn⟩

/-- Settles O7: every instruction is a retire, and only the fetch faults, where it finds no entry. -/
theorem everyInstructionCompletes : Obligations.EveryInstructionCompletes := by
  refine ⟨fun i s => ⟨_, exec_eq i s⟩, fun s p hp hlt => ?_, fun s ⟨t⟩ h => (step_fault_iff s).mp ⟨t, h⟩,
    fun s ⟨t⟩ h => (tick_fault_iff s).mp ⟨t, h⟩⟩
  have hi : p[s.pc.toNat]? = some p[s.pc.toNat] := List.getElem?_eq_getElem hlt
  exact ⟨⟨_, step_next hp hi⟩, exists_tick_next hp hi⟩

/-! ## The two error kinds (R82, R83, R84) -/

theorem code_of_error {reply : Reply} {kind : ErrorKind} (h : reply.error = some kind) : reply.code = kind.code := by
  rw [Reply.code, h]

theorem code_of_no_error {reply : Reply} (h : reply.error = none) : reply.code = 0#2 := by
  rw [Reply.code, h]

/-- A load reports DecodeError exactly when its verdict is one. -/
theorem finishLoad_decodeError_iff (s : State) (verdict : Except DecodeError Memory) :
    (s.finishLoad verdict).2.error = some .decodeError ↔ ∃ e, verdict = .error e := by
  obtain ⟨e, rfl, h⟩ | ⟨p, rfl, -, h⟩ | ⟨p, rfl, -, h⟩ := finishLoad_cases s verdict <;> simp [h]

theorem finishLoad_error_ne_invalidState (s : State) (verdict : Except DecodeError Memory) :
    (s.finishLoad verdict).2.error ≠ some .invalidStateError := by
  obtain ⟨e, -, h⟩ | ⟨p, -, -, h⟩ | ⟨p, -, -, h⟩ := finishLoad_cases s verdict <;> simp [h]

/-- A load that reports DecodeError shows `decode_err` = 1. -/
theorem finishLoad_decodeErr {s : State} {verdict : Except DecodeError Memory}
    (h : (s.finishLoad verdict).2.error = some .decodeError) : (s.finishLoad verdict).1.decodeErr = 1#1 := by
  obtain ⟨e, rfl⟩ := (finishLoad_decodeError_iff s verdict).mp h
  rfl

theorem finishRun_error_ne_decodeError (s : State) (outcome : Host.Outcome State Fault Refusal) :
    (s.finishRun outcome).2.error ≠ some .decodeError := by
  cases outcome with
  | next t => simp
  | fault r => cases r; simp
  | refused r => simp

/-- A step or tick request reports InvalidStateError exactly when the step or tick faults. -/
theorem finishRun_invalidState_iff (s : State) (outcome : Host.Outcome State Fault Refusal) :
    (s.finishRun outcome).2.error = some .invalidStateError ↔ ∃ t, outcome = .fault (.invalidStateError t) := by
  cases outcome with
  | next t => simp
  | fault r => cases r; simp
  | refused r => simp

/-- In a run the pc is at no instruction exactly when the machine is Halted (R59). -/
theorem status_halted_iff {s : State} (hs : s.Inv) :
    s.status = some .halted ↔ ∃ p, s.program = some p ∧ p.length ≤ s.pc.toNat := by
  constructor
  · intro h
    cases hp : s.program with
    | none => simp [State.status, hp] at h
    | some p => exact ⟨p, rfl, (pc_length_of_halted hp h).ge⟩
  · rintro ⟨p, hp, hn⟩
    rw [status_eq_statusOf hp, statusOf_halted _ (Nat.le_antisymm ((inv_iff_runInv hp).mp hs).pcInRange hn)]

/-- DecodeError is reported by the loads alone. -/
theorem serve_decodeError_iff (r : Request) (s : State) : (serve r s).2.error = some .decodeError ↔
    (∃ text e, r = .loadText text ∧ loadText text = .error e) ∨
    (∃ words e, r = .loadWords words ∧ loadWords words = .error e) := by
  cases r with
  | loadText text => simpa [serve] using finishLoad_decodeError_iff s (loadText text)
  | loadWords words => simpa [serve] using finishLoad_decodeError_iff s (loadWords words)
  | rst => simp [serve]
  | stepReq => simpa [serve] using finishRun_error_ne_decodeError s (step s)
  | tickReq => simpa [serve] using finishRun_error_ne_decodeError s (tick s)

/-- InvalidStateError is reported by the step and tick requests alone. -/
theorem serve_invalidState_iff (r : Request) {s : State} (hs : s.Inv) :
    (serve r s).2.error = some .invalidStateError ↔ (r = .stepReq ∨ r = .tickReq) ∧ s.status = some .halted := by
  cases r with
  | loadText text => simpa [serve] using finishLoad_error_ne_invalidState s (loadText text)
  | loadWords words => simpa [serve] using finishLoad_error_ne_invalidState s (loadWords words)
  | rst => simp [serve]
  | stepReq => simpa [serve, status_halted_iff hs] using (finishRun_invalidState_iff s (step s)).trans (step_fault_iff s)
  | tickReq => simpa [serve, status_halted_iff hs] using (finishRun_invalidState_iff s (tick s)).trans (tick_fault_iff s)

theorem serve_decodeErr {r : Request} {s : State} (h : (serve r s).2.error = some .decodeError) :
    (serve r s).1.decodeErr = 1#1 := by
  obtain ⟨text, e, rfl, -⟩ | ⟨words, e, rfl, -⟩ := (serve_decodeError_iff r s).mp h <;> exact finishLoad_decodeErr h

/-- A request that reports InvalidStateError has raised it. -/
theorem serve_errCode {r : Request} {s : State} (h : (serve r s).2.error = some .invalidStateError) :
    (serve r s).1.errCode = 2#2 := by
  cases r with
  | loadText text => exact absurd h (finishLoad_error_ne_invalidState s _)
  | loadWords words => exact absurd h (finishLoad_error_ne_invalidState s _)
  | rst => cases h
  | stepReq =>
    obtain ⟨t, ht⟩ := (finishRun_invalidState_iff s (step s)).mp h
    obtain ⟨p, -, -, rfl⟩ := raise_of_step_eq_fault ht
    rw [serve, ht, finishRun_fault, raise_errCode]
  | tickReq =>
    obtain ⟨t, ht⟩ := (finishRun_invalidState_iff s (tick s)).mp h
    obtain ⟨p, -, -, rfl⟩ := raise_of_tick_eq_fault ht
    rw [serve, ht, finishRun_fault, raise_errCode]

/-- Settles O49: a load ends in its decoder's verdict, and a step or tick faults where the pc is at no instruction, which
the invariant makes Halted. -/
theorem errorKindsAndCodes : Obligations.ErrorKindsAndCodes := by
  refine ⟨rfl, rfl, fun kind => ?kinds, serve_decodeError_iff, fun r s => serve_invalidState_iff r,
    fun r s h => ⟨code_of_error h, serve_decodeErr h⟩, fun r s h => ⟨code_of_error h, serve_errCode h⟩,
    fun r s => code_of_no_error⟩
  case kinds => cases kind <;> simp

/-! ## How an observer drives its machine (R93, R103)

An observer steps or ticks its machine and charges each round to a range of cycles. What both observers need of a run is
the same under either drive: the rounds' ranges cover the timeline in order, each shows the register read before the
round, and the run ends Halted at T. -/

/-- A way to drive a machine: the request, and the range of cycle indices from `start` to `stop` it is charged with. -/
structure Drive where
  run : State → Host.Outcome State Fault Refusal
  start : State → Nat
  stop : State → State → Nat

/-- Driven by steps, the range is read off `cycle` before and after the step (R95, R98). -/
def stepDrive : Drive := { run := step, start := fun s => s.cycle.toNat, stop := fun _ t => t.cycle.toNat }

/-- Driven by ticks, the range is the one cycle `now` (R103). -/
def tickDrive : Drive := { run := tick, start := fun s => s.now.toNat, stop := fun s _ => s.now.toNat + 1 }

/-- The timeline shows `v` from cycle `b` up to cycle `a`. -/
def Shows (p : Memory) (b a : Nat) (v : Word) : Prop := ∀ c, b ≤ c → c < a → val p c = some v

/-- From `s`, `n` rounds go to the end of the run on `p`, each over cycles that show the register before the round. -/
inductive Drive.Covers (D : Drive) (p : Memory) : Nat → State → Prop where
  | halted {s : State} (hs : s.status = some .halted) (hstart : D.start s = totalCycles p) : D.Covers p 0 s
  | next {n : Nat} {s t : State} (hs : s.status ≠ some .halted) (hrun : D.run s = .next t)
      (hstop : D.stop s t = D.start t) (hle : D.start s ≤ D.start t) (hshows : Shows p (D.start s) (D.start t) s.reg)
      (rest : D.Covers p n t) : D.Covers p (n + 1) s

theorem status_ne_halted {s : State} {p : Memory} (hp : s.program = some p) (hlt : s.pc.toNat < p.length) :
    s.status ≠ some .halted := fun h => hlt.ne (pc_length_of_halted hp h)

namespace RunInv

variable {p : Memory} {s : State}

/-- The cycles of the instruction at the pc show the register before it (R63). -/
theorem shows_instr (h : RunInv p s) (hlt : s.pc.toNat < p.length) :
    Shows p s.cycle.toNat (s.cycle.toNat + cost p[s.pc.toNat]) s.reg := by
  rw [h.regIsSum, h.cycleIsSum, ← cycleAfter_succ (List.getElem?_eq_getElem hlt)]
  exact fun c => val_of_interval hlt

/-- The one cycle of a tick shows the register before it (R72). -/
theorem shows_now (h : RunInv p s) (hlt : s.pc.toNat < p.length) : Shows p s.now.toNat (s.now.toNat + 1) s.reg := by
  intro c hlo hhi
  obtain rfl : c = s.now.toNat := by omega
  rw [h.now_toNat, h.val_cycle_add_phase hlt]

/-- Once every cycle of the run has elapsed, no instruction is left. -/
theorem pc_eq_length (h : RunInv p s) (hend : s.cycle.toNat + s.phase.toNat = totalCycles p) :
    s.pc.toNat = p.length := by
  refine h.pcInRange.antisymm (Nat.not_lt.mp fun hlt => ?_)
  have hval := (List.getElem?_eq_some_iff.mp (h.val_cycle_add_phase hlt)).1
  rw [timeline_length, hend] at hval
  exact Nat.lt_irrefl _ hval

/-- In a run, the steps that are left cover the timeline from `cycle` on. -/
theorem stepDrive_covers {n : Nat} (h : RunInv p s) (hp : s.program = some p) (hn : s.pc.toNat + n = p.length) :
    stepDrive.Covers p n s := by
  induction n generalizing s with
  | zero =>
    refine .halted ?_ (h.cycleIsSum.trans (congrArg (cycleAfter p) hn))
    rw [status_eq_statusOf hp, statusOf_halted _ hn]
  | succ n ih =>
    have hlt : s.pc.toNat < p.length := by omega
    have hi : p[s.pc.toNat]? = some p[s.pc.toNat] := List.getElem?_eq_getElem hlt
    have hcycle := h.retire_cycle_toNat (i := p[s.pc.toNat]) (effect p[s.pc.toNat] s.reg)
    have hpc := h.retire_pc_toNat hi (cost p[s.pc.toNat]) (effect p[s.pc.toNat] s.reg)
    have hshows := h.shows_instr hlt
    rw [← hcycle] at hshows
    exact .next (status_ne_halted hp hlt) (step_next hp hi) rfl (Nat.le.intro hcycle.symm) hshows
      (ih (h.retire hi) ((retire_program ..).trans hp) (by omega))

/-- In a run, the ticks that are left cover the rest of the timeline, one cycle each. -/
theorem tickDrive_covers {n : Nat} (h : RunInv p s) (hp : s.program = some p)
    (hn : s.cycle.toNat + s.phase.toNat + n = totalCycles p) : tickDrive.Covers p n s := by
  induction n generalizing s with
  | zero =>
    refine .halted ?_ (h.now_toNat.trans hn)
    rw [status_eq_statusOf hp, statusOf_halted _ (h.pc_eq_length hn)]
  | succ n ih =>
    have hlt : s.pc.toNat < p.length := h.pc_lt_of_cycle_lt (by omega)
    obtain ⟨t, ht, htp, hinv, hnow⟩ := h.tick_executes_next_cycle hp hlt
    have hstop : s.now.toNat + 1 = t.now.toNat := by rw [h.now_toNat, hinv.now_toNat, hnow]
    have hshows := h.shows_now hlt
    rw [hstop] at hshows
    exact .next (status_ne_halted hp hlt) ht hstop (Nat.le_of_succ_le hstop.le) hshows
      (ih hinv htp (by omega))

end RunInv

/-- N steps from reset cover the timeline. -/
theorem stepDrive_covers_install {p : Memory} (hp : p.wf = true) : stepDrive.Covers p p.length (State.install p) :=
  (RunInv.resetOn_loaded hp).stepDrive_covers rfl (Nat.zero_add _)

/-- T ticks from reset cover the timeline. -/
theorem tickDrive_covers_install {p : Memory} (hp : p.wf = true) :
    tickDrive.Covers p (totalCycles p) (State.install p) :=
  (RunInv.resetOn_loaded hp).tickDrive_covers rfl (Nat.zero_add _)

/-! ## The sum (R94, R96) -/

theorem val_eq_none_of_le {p : Memory} {c : Nat} (h : totalCycles p ≤ c) : val p c = none :=
  List.getElem?_eq_none ((timeline_length p).symm ▸ h)

theorem contribution_of_val {p : Memory} {t : Nat} {v : Word} (ht : 1 ≤ t) (hv : val p (t - 1) = some v) :
    contribution p t = (t : Int) * signed32 v := by
  rw [contribution, if_pos ht, hv]

/-- A target beyond the run adds nothing (R96). -/
theorem contribution_beyond {p : Memory} {t : Nat} (h : totalCycles p < t) : contribution p t = 0 := by
  rw [contribution, val_eq_none_of_le (Nat.le_sub_one_of_lt h)]
  exact ite_self 0

theorem contribution_nil (t : Nat) : contribution [] t = 0 := by
  rw [contribution, val_eq_none_of_le (Nat.zero_le _)]
  exact ite_self 0

@[simp] theorem signal_nil (p : Memory) : signal p [] = 0 := rfl

@[simp] theorem signal_cons (p : Memory) (t : Nat) (targets : List Nat) :
    signal p (t :: targets) = contribution p t + signal p targets := by
  simp [signal]

theorem signal_append (p : Memory) (ts us : List Nat) : signal p (ts ++ us) = signal p ts + signal p us := by
  simp [signal]

theorem signal_perm (p : Memory) {ts us : List Nat} (h : ts.Perm us) : signal p ts = signal p us :=
  (h.map _).sum_eq

/-- Targets that add nothing have no sum. -/
theorem signal_eq_zero {p : Memory} {targets : List Nat} (h : ∀ t ∈ targets, contribution p t = 0) :
    signal p targets = 0 := by
  apply List.sum_eq_zero
  simpa using h

/-- The sum over the targets taken and the targets left is the sum over all. -/
theorem signal_filter_add (p : Memory) (due : Nat → Bool) (targets : List Nat) :
    signal p (targets.filter due) + signal p (targets.filter fun t => !due t) = signal p targets := by
  rw [← signal_append, signal_perm p (List.filter_append_perm due targets)]

/-- Where the timeline shows `v`, the targets due add their multiples of `v`. -/
theorem signal_filter_due {p : Memory} {b a : Nat} {v : Word} (h : Shows p b a v) (targets : List Nat) :
    signal p (targets.filter (targetDue b a)) =
      ((targets.filter (targetDue b a)).map fun t : Nat => (t : Int) * signed32 v).sum := by
  refine congrArg List.sum (List.map_congr_left fun t ht => ?_)
  obtain ⟨hlo, hhi⟩ : b < t ∧ t ≤ a := by simpa [targetDue] using (List.mem_filter.mp ht).2
  exact contribution_of_val (by omega) (h (t - 1) (by omega) (by omega))

theorem sampleResult_of_within {p : Memory} {targets : List Nat} (h : ∀ t ∈ targets, t ≤ totalCycles p) :
    sampleResult true p targets = .ok (sample p targets) := by
  simpa [sampleResult] using h

theorem sampleResult_of_beyond {p : Memory} {targets : List Nat} {t : Nat} (ht : t ∈ targets)
    (h : totalCycles p < t) : sampleResult true p targets = .error .targetBeyondRun := by
  simpa [sampleResult] using ⟨t, ht, h⟩

/-- Settles O44: the sum is taken target by target, and beyond the run the timeline has no value. -/
theorem signalContractAndEdges : Obligations.SignalContractAndEdges := by
  refine ⟨signal_nil, fun p t targets v ht _ hv => ?within, fun p t ht htT => exists_val_of_lt (by omega),
    fun p t targets ht => ?beyond, fun targets => signal_eq_zero fun t _ => contribution_nil t,
    fun p _ _ => signal_perm p, rfl, rfl, fun p targets => rfl,
    fun p targets t ht h => ⟨_, sampleResult_of_beyond ht h⟩, fun p targets => sampleResult_of_within⟩
  case within => rw [signal_cons, contribution_of_val ht hv]
  case beyond => rw [signal_cons, contribution_beyond ht, Int.zero_add]

/-! ## The Sampler (R95, R103) -/

/-- A round of the Sampler under a drive: it records the targets of the range with the register before the request. -/
def Drive.SamplerRound (D : Drive) (round : Sampler → Sampler) : Prop :=
  ∀ q m, D.run q.machine = .next m →
    round q = q.record m (D.start q.machine) (D.stop q.machine m) q.machine.reg

theorem samplerRound_advance : stepDrive.SamplerRound Sampler.advance := by
  intro q m (h : step q.machine = .next m)
  rw [Sampler.advance, h]
  rfl

theorem samplerRound_advanceTick : tickDrive.SamplerRound Sampler.advanceTick := by
  intro q m (h : tick q.machine = .next m)
  rw [Sampler.advanceTick, h]
  rfl

/-- Before cycle `b`: what is recorded and what is pending add up to the contract's sum, and every pending target is still
ahead. -/
structure Sampler.Owes (p : Memory) (targets : List Nat) (b : Nat) (q : Sampler) : Prop where
  total : q.acc + signal p q.pending = signal p targets
  ahead : ∀ t ∈ q.pending, b < t

theorem Sampler.owes_start {p : Memory} {targets : List Nat} (h : Targets.wf targets = true) :
    (Sampler.start p targets).Owes p targets 0 where
  total := Int.zero_add _
  ahead := by
    obtain ⟨hpos, -⟩ : (∀ t ∈ targets, 1 ≤ t) ∧ targets.Nodup := by simpa [Targets.wf] using h
    exact hpos

/-- Recording the targets of a range that shows `v` moves their part of the sum from pending to recorded. -/
theorem Sampler.Owes.record {p : Memory} {targets : List Nat} {b a : Nat} {v : Word} {q : Sampler}
    (h : q.Owes p targets b) (hv : Shows p b a v) (m : State) : (q.record m b a v).Owes p targets a where
  total := by
    rw [← h.total, ← signal_filter_add p (targetDue b a) q.pending, signal_filter_due hv, ← Int.add_assoc]
    rfl
  ahead t ht := by
    obtain ⟨hmem, hdue⟩ := List.mem_filter.mp ht
    have hb := h.ahead t hmem
    simpa [targetDue, hb] using hdue

/-- With no target pending, or only targets beyond the run, the recorded sum is the contract's. -/
theorem Sampler.Owes.acc_eq {p : Memory} {targets : List Nat} {b : Nat} {q : Sampler} (h : q.Owes p targets b)
    (hend : ∀ t ∈ q.pending, totalCycles p < t) : q.acc = signal p targets := by
  rw [← h.total, signal_eq_zero fun t ht => contribution_beyond (hend t ht), Int.add_zero]

/-- The loop under either drive ends with the contract's sum. -/
theorem Sampler.loop_acc {D : Drive} {round : Sampler → Sampler} (hround : D.SamplerRound round) {p : Memory}
    {targets : List Nat} {n : Nat} {s : State} (hcov : D.Covers p n s) {q : Sampler} (hq : q.machine = s)
    (h : q.Owes p targets (D.start s)) : (Sampler.loop round n q).acc = signal p targets := by
  induction hcov generalizing q with
  | halted _ hstart => exact h.acc_eq (hstart ▸ h.ahead)
  | next hs hrun hstop _ hshows _ ih =>
    subst hq
    rw [Sampler.loop]
    split
    case isTrue =>
      have hm := hround q _ hrun
      rw [hstop] at hm
      exact ih (congrArg Sampler.machine hm) (hm ▸ h.record hshows _)
    case isFalse hdone =>
      have hnil : q.pending = [] := by simpa [Sampler.goesOn, hs] using hdone
      exact h.acc_eq (by simp [hnil])

/-- Settles O43: the steps of a run cover the timeline, and each records the targets of its cycles. -/
theorem samplerComputesTheSignal : Obligations.SamplerComputesTheSignal := fun _ _ hp ht =>
  Sampler.loop_acc samplerRound_advance (stepDrive_covers_install hp) rfl (Sampler.owes_start ht)

theorem sampleByTicks_eq_signal {p : Memory} {targets : List Nat} (hp : p.wf = true)
    (ht : Targets.wf targets = true) : sampleByTicks p targets = signal p targets :=
  Sampler.loop_acc samplerRound_advanceTick (tickDrive_covers_install hp) rfl (Sampler.owes_start ht)

/-! ## The Renderer (R98, R103) -/

/-- The pixels of the cycles before `c`. -/
def pixelsBefore (p : Memory) (c : Nat) : List Pixel := ((timeline p).mapIdx pixelAt).take c

theorem pixelsBefore_totalCycles (p : Memory) : pixelsBefore p (totalCycles p) = (timeline p).mapIdx pixelAt :=
  List.take_of_length_le (by simp [timeline_length])

theorem mapIdx_pixelAt_getElem? {p : Memory} {c : Nat} {v : Word} (h : val p c = some v) :
    ((timeline p).mapIdx pixelAt)[c]? = some (pixelAt c v) := by
  rw [val] at h
  rw [List.getElem?_mapIdx, h, Option.map_some]

theorem pixelsBefore_succ {p : Memory} {c : Nat} {v : Word} (h : val p c = some v) :
    pixelsBefore p (c + 1) = pixelsBefore p c ++ [pixelAt c v] := by
  rw [pixelsBefore, List.take_add_one, mapIdx_pixelAt_getElem? h]
  rfl

/-- Where the timeline shows `v`, its pixels are those of `v`. -/
theorem pixelsBefore_append {p : Memory} {b a : Nat} {v : Word} (hle : b ≤ a) (h : Shows p b a v) :
    pixelsBefore p b ++ (List.range' b (a - b)).map (fun c => pixelAt c v) = pixelsBefore p a := by
  obtain ⟨k, rfl⟩ := Nat.exists_eq_add_of_le hle
  rw [Nat.add_sub_cancel_left]
  induction k with
  | zero => simp
  | succ k ih =>
    have hk := ih (Nat.le_add_right b k) fun c hlo hhi => h c hlo (Nat.lt_succ_of_lt hhi)
    have hv : val p (b + k) = some v := h _ (Nat.le_add_right b k) (Nat.lt_succ_self _)
    rw [← Nat.add_assoc, pixelsBefore_succ hv, ← hk, List.range'_concat]
    simp

/-- A round of the Renderer under a drive: the register before the request decides the pixels of the range. -/
def Drive.RendererRound (D : Drive) (round : Renderer → Renderer) : Prop :=
  ∀ q m, D.run q.machine = .next m →
    round q = { machine := m
                pixels := q.pixels ++ (List.range' (D.start q.machine) (D.stop q.machine m - D.start q.machine)).map
                  (fun c => pixelAt c q.machine.reg) }

theorem rendererRound_advance : stepDrive.RendererRound Renderer.advance := by
  intro q m (h : step q.machine = .next m)
  rw [Renderer.advance, h]
  rfl

theorem rendererRound_advanceTick : tickDrive.RendererRound Renderer.advanceTick := by
  intro q m (h : tick q.machine = .next m)
  rw [Renderer.advanceTick, h]
  simp [tickDrive]

/-- The loop under either drive ends with every pixel of the timeline. -/
theorem Renderer.loop_pixels {D : Drive} {round : Renderer → Renderer} (hround : D.RendererRound round) {p : Memory}
    {n : Nat} {s : State} (hcov : D.Covers p n s) {q : Renderer} (hq : q.machine = s)
    (h : q.pixels = pixelsBefore p (D.start s)) :
    (Renderer.loop round n q).pixels = (timeline p).mapIdx pixelAt := by
  induction hcov generalizing q with
  | halted _ hstart => exact h.trans (hstart ▸ pixelsBefore_totalCycles p)
  | next hs hrun hstop hle hshows _ ih =>
    subst hq
    have hm := hround q _ hrun
    rw [hstop, h, pixelsBefore_append hle hshows] at hm
    rw [Renderer.loop, if_neg hs]
    exact ih (congrArg Renderer.machine hm) (congrArg Renderer.pixels hm)

/-- Settles O45: the steps of a run cover the timeline, and each decides the pixels of its cycles. -/
theorem rendererDrawsTheRaster : Obligations.RendererDrawsTheRaster := fun _ hp =>
  congrArg rows (Renderer.loop_pixels rendererRound_advance (stepDrive_covers_install hp) rfl rfl)

theorem renderByTicks_eq_raster {p : Memory} (hp : p.wf = true) : renderByTicks p = raster p :=
  congrArg rows (Renderer.loop_pixels rendererRound_advanceTick (tickDrive_covers_install hp) rfl rfl)

/-- Settles O47: the ticks of a run cover the timeline as its steps do, so both observers end in the same place. -/
theorem tickDrivenObserversAgree : Obligations.TickDrivenObserversAgree :=
  ⟨fun _ _ => sampleByTicks_eq_signal, fun _ => renderByTicks_eq_raster⟩

/-! ## The image (R97, R98, R99) -/

@[simp] theorem rows_length (pixels : List Pixel) : (rows pixels).length = rowCount pixels.length := by
  simp [rows]

/-- Row `r` is the `r`-th run of 40 pixels. -/
theorem rows_getElem? {pixels : List Pixel} {r : Nat} (h : r < rowCount pixels.length) :
    (rows pixels)[r]? = some ((pixels.drop (r * 40)).take 40) := by
  simp [rows, h, Config.rasterWidth]

/-- Every row there is has its pixels and their number. -/
theorem length_of_rows_getElem? {pixels row : List Pixel} {r : Nat}
    (h : (rows pixels)[r]? = some row) : row.length = min 40 (pixels.length - r * 40) := by
  have hr : r < rowCount pixels.length := rows_length pixels ▸ (List.getElem?_eq_some_iff.mp h).1
  rw [rows_getElem? hr, Option.some.injEq] at h
  simp [← h]

/-- Pixel `c` stands in row `c div 40` at position `c mod 40`. -/
theorem rows_pixel {pixels : List Pixel} {c : Nat} (h : c < pixels.length) :
    ∃ row, (rows pixels)[c / 40]? = some row ∧ row[c % 40]? = pixels[c]? := by
  have hr : c / 40 < rowCount pixels.length := by
    simp only [rowCount, Config.rasterWidth]
    omega
  refine ⟨_, rows_getElem? hr, ?_⟩
  rw [List.getElem?_take_of_lt (Nat.mod_lt _ (by decide)), List.getElem?_drop, Nat.div_add_mod']

theorem raster_length (p : Memory) : (raster p).length = (totalCycles p + 39) / 40 := by
  simp [raster, timeline_length, rowCount, Config.rasterWidth]

/-- A pixel of the raster is decided by the timeline's value of its cycle (R98). -/
theorem raster_pixel {p : Memory} {c : Nat} {v : Word} (hv : val p c = some v) :
    ∃ row, (raster p)[c / 40]? = some row ∧ row[c % 40]? = some (pixelAt c v) := by
  have hc : c < ((timeline p).mapIdx pixelAt).length := by
    simpa using (List.getElem?_eq_some_iff.mp hv).1
  obtain ⟨row, hrow, hpixel⟩ := rows_pixel hc
  exact ⟨row, hrow, by rw [hpixel, mapIdx_pixelAt_getElem? hv]⟩

theorem raster_row_length {p : Memory} {r : Nat} {row : List Pixel} (h : (raster p)[r]? = some row) :
    row.length = min 40 (totalCycles p - r * 40) := by
  simpa [timeline_length] using length_of_rows_getElem? h

@[simp] theorem imageText_nil : imageText [] = [] := rfl

@[simp] theorem imageText_single (row : List Pixel) : imageText [row] = row.map pixelByte := by
  simp [imageText]

/-- Rows are separated by LF, with none after the last (R99). -/
theorem imageText_cons_cons (row row' : List Pixel) (rest : List (List Pixel)) :
    imageText (row :: row' :: rest) = row.map pixelByte ++ lf :: imageText (row' :: rest) := by
  simp [imageText, List.intercalate]

theorem renderResult_of_partial {p : Memory} (h : totalCycles p % 40 ≠ 0) :
    renderResult true p = .error .partialRow := by
  simp [renderResult, Config.rasterWidth, h]

theorem renderResult_of_whole {p : Memory} (h : totalCycles p % 40 = 0) : renderResult true p = .ok (render p) := by
  simp [renderResult, Config.rasterWidth, h]

/-- Settles O46: the raster cuts the timeline's pixels into rows of 40, so a pixel's cycle gives its row and its place. -/
theorem rasterShape : Obligations.RasterShape := by
  refine ⟨rfl, fun p c hc => ?pixel, raster_length, fun p r row hrow hr => ?full, fun p row hT hrow => ?last, rfl, rfl,
    rfl, imageText_nil, imageText_single, imageText_cons_cons, fun p => rfl,
    fun p h => ⟨_, renderResult_of_partial h⟩, fun p => renderResult_of_whole⟩
  case pixel =>
    obtain ⟨v, hv⟩ := exists_val_of_lt hc
    obtain ⟨row, hrow, hpixel⟩ := raster_pixel hv
    exact ⟨row, v, hrow, hv, hpixel⟩
  case full =>
    rw [raster_row_length hrow]
    omega
  case last =>
    rw [raster_row_length hrow]
    omega

end Sys2Proof.Machine

/-! PROOFS. The statements about reset and load (70_reset_and_hazards.md): the reset values, what a load and rst leave, and
the invariant of every state the block reaches. -/

namespace Sys2Proof.Machine

/-! ## Reset (R104) -/

theorem serve_rst (s : State) : serve .rst s = (s.rst, .done) := rfl

/-- Settles O22: rst is `State.resetOn` on the machine's own store. -/
theorem resetValues : Obligations.ResetValues :=
  ⟨fun s _ hp => ⟨serve_rst s, (rst_program s).trans hp, resetOn_reg _, resetOn_cycle _, resetOn_pc _, resetOn_phase _,
    resetOn_err _, resetOn_errCode _⟩, resetOn_reg _, resetOn_cycle _, resetOn_pc _, resetOn_phase _, resetOn_err _,
    resetOn_errCode _⟩

/-! ## Load and rst (R106) -/

theorem finishLoad_ok (s : State) {verdict : Except DecodeError Memory} {p : Memory} (h : verdict = .ok p)
    (hlen : p.length ≤ Config.maxProgramLength) : s.finishLoad verdict = (State.install p, .done) := by
  rw [h, State.finishLoad, if_pos hlen]

theorem finishLoad_error (s : State) {verdict : Except DecodeError Memory} {e : DecodeError} (h : verdict = .error e) :
    s.finishLoad verdict = (State.reject e, .decodeError e) := by
  rw [h, State.finishLoad]

theorem step_noProgram {s : State} (hp : s.program = none) : step s = .refused .noProgram := by
  rw [step, fetch_noProgram hp]

theorem rst_eq_install {s : State} {p : Memory} (hp : s.program = some p) : s.rst = State.install p := by
  rw [rst_eq_resetOn, (program_eq_some_iff s p).mp hp, install_eq_resetOn]

/-- Settles O23: both forms of a load end alike in their decoder's verdict, and with no Program the fetch refuses. -/
theorem loadInstallsOrLeavesNoProgram : Obligations.LoadInstallsOrLeavesNoProgram := by
  refine ⟨fun s text p => finishLoad_ok s, fun s words p => finishLoad_ok s,
    fun s text e h => ⟨_, finishLoad_error s h, reject_program e⟩,
    fun s words e h => ⟨_, finishLoad_error s h, reject_program e⟩,
    fun s hp => ⟨?step, ?tick⟩, fun s p hp => ?rst⟩
  case step => rw [serve, step_noProgram hp, finishRun_refused]
  case tick => rw [serve, tick_noProgram hp, finishRun_refused]
  case rst => rw [serve_rst, rst_eq_install hp]

/-! ## Every request keeps the invariant

A reset meets the invariant on every store of the right form, and the invariant gives that form; so the loads and rst need
only the form of the store they leave. A step and a tick keep it by what a retire, an elapse and a raise do. -/

/-- Reset meets the invariant exactly on a store of the right form. -/
theorem resetOn_inv_iff (st : Store) : (State.resetOn st).Inv ↔ st.wf = true := by
  cases st with
  | empty => exact iff_of_true rfl rfl
  | rejected e => exact iff_of_true rfl rfl
  | loaded p => exact ⟨RunInv.storeForm, RunInv.resetOn_loaded⟩

theorem store_wf_of_inv {s : State} (hs : s.Inv) : s.store.wf = true := by
  cases hp : s.program with
  | none =>
    rw [eq_resetOn_of_inv hp hs] at hs
    exact (resetOn_inv_iff s.store).mp hs
  | some p =>
    rw [(program_eq_some_iff s p).mp hp]
    exact ((inv_iff_runInv hp).mp hs).storeForm

theorem rst_inv {s : State} (hs : s.Inv) : s.rst.Inv :=
  (resetOn_inv_iff s.store).mpr (store_wf_of_inv hs)

/-- A load ends in a reset on the store it leaves, or is refused and leaves the machine. -/
theorem finishLoad_inv {s : State} {verdict : Except DecodeError Memory} (hs : s.Inv)
    (hv : ∀ p, verdict = .ok p → p.all Instr.wf = true) : (s.finishLoad verdict).1.Inv := by
  have hwf := finishLoad_wf (store_wf_of_inv hs) hv
  obtain ⟨e, -, h⟩ | ⟨p, -, -, h⟩ | ⟨p, -, -, h⟩ := finishLoad_cases s verdict <;> rw [h] at hwf ⊢
  · exact (resetOn_inv_iff (.rejected e)).mpr hwf
  · exact (resetOn_inv_iff (.loaded p)).mpr hwf
  · exact hs

theorem tick_inv {s t : State} (hs : s.Inv) (h : tick s = .next t) : t.Inv := by
  obtain ⟨p, i, hp, hi, ⟨-, rfl⟩ | ⟨hne, rfl⟩⟩ := retire_or_elapse_of_tick_eq_next h
  · exact (inv_iff_runInv ((retire_program ..).trans hp)).mpr (((inv_iff_runInv hp).mp hs).retire hi)
  · exact (inv_iff_runInv ((elapse_program s).trans hp)).mpr (((inv_iff_runInv hp).mp hs).elapse hi hne)

theorem tick_fault_inv {s t : State} (hs : s.Inv) (h : tick s = .fault (.invalidStateError t)) : t.Inv := by
  obtain ⟨p, hp, hn, rfl⟩ := raise_of_tick_eq_fault h
  exact (inv_iff_runInv ((raise_program s).trans hp)).mpr (((inv_iff_runInv hp).mp hs).raise hn)

/-- A step or tick request leaves the next state, the machine the fault carries, or the state it found. -/
theorem finishRun_inv {s : State} {outcome : Host.Outcome State Fault Refusal} (hs : s.Inv)
    (hnext : ∀ t, outcome = .next t → t.Inv) (hfault : ∀ t, outcome = .fault (.invalidStateError t) → t.Inv) :
    (s.finishRun outcome).1.Inv := by
  cases outcome with
  | next t => exact hnext t rfl
  | fault r =>
    cases r with
    | invalidStateError t => exact hfault t rfl
  | refused r => exact hs

/-- Settles O27: the loads and rst end in a reset on a well-formed store, with no Program too (log entries 4 and 5), and a
step or tick keeps `RunInv`. -/
theorem everyRequestKeepsTheInvariant : Obligations.EveryRequestKeepsTheInvariant := by
  intro r s hs
  cases r with
  | loadText text => exact finishLoad_inv hs fun _ => loadText_wf
  | loadWords words => exact finishLoad_inv hs fun _ => loadWords_wf
  | rst => exact rst_inv hs
  | stepReq =>
    obtain ⟨hnext, hfault⟩ := stepKeepsTheInvariant
    exact finishRun_inv hs (fun t => hnext s t hs) fun t => hfault s t hs
  | tickReq => exact finishRun_inv hs (fun _ => tick_inv hs) fun _ => tick_fault_inv hs

end Sys2Proof.Machine

/-! PROOFS. The statements about one instruction at `exec` (41_instructions.md, R60), about the reset as the start of the
invariant (R104), and about the words written out from the encoding (R51, R53). -/

namespace Sys2Proof.Machine

/-! ## The result and the frame of an instruction (R60, R77, R78) -/

/-- The exact sum narrowed to the register is the register's own addition. -/
theorem addImmediate_eq_add (v : Word) (d : Int) : addImmediate v d = v + BitVec.ofInt 32 d := by
  rw [addImmediate, wrap32, BitVec.ofInt_add, signed32, BitVec.ofInt_toInt]

/-- What `exec` answers is the retire, whichever instruction it is. -/
theorem retire_of_exec_eq_next {i : Instr} {s t : State} (h : exec i s = .next t) :
    t = s.retire (cost i) (effect i s.reg) := by
  rw [exec_eq] at h
  cases h
  rfl

/-- Settles O3: each instruction is one retire, of cost 1 and the register kept for NoOp, of cost 2 and the wrapping sum for
AddX. -/
theorem execResultAndFrame : Obligations.ExecResultAndFrame := by
  refine ⟨fun s => exec_eq .noop s, fun d s => ?addx⟩
  case addx =>
    rw [exec_eq, effect, addImmediate_eq_add]
    rfl

/-- Settles O4: a retire leaves the store and the error output, and the store alone gives the Program. -/
theorem execFrame : Obligations.ExecFrame := by
  intro i s t h
  obtain rfl := retire_of_exec_eq_next h
  refine ⟨retire_store .., retire_err .., retire_errCode .., ?reg, fun p q k hp hq => ?entry⟩
  case reg =>
    rintro rfl
    exact retire_reg ..
  case entry =>
    rw [retire_program, hp] at hq
    cases hq
    rfl

/-! ## The invariant at reset (R104, R107) -/

/-- Settles O25: the empty store of `State.reset` (log entry 1) and a well-formed Program are both of the right form. -/
theorem resetMeetsTheInvariant : Obligations.ResetMeetsTheInvariant :=
  ⟨(resetOn_inv_iff .empty).mpr rfl, fun p => (resetOn_inv_iff (.loaded p)).mpr⟩

end Sys2Proof.Machine

namespace Sys2Proof

/-! ## Words written out (R51, R53) -/

theorem decodeWord_of_encode_eq {i : Instr} {w : InstrWord} (h : encode i = w) (hwf : i.wf = true) :
    decodeWord w = .ok i := by
  rw [← h, decodeWord_encode hwf]

theorem exists_error_of_reserved {w : InstrWord} (hop : opField w = 0#1) (himm : immField w ≠ 0#32) :
    ∃ c, decodeWord w = .error c := by
  rw [word_eq_append w, hop]
  exact ⟨_, decodeWord_reserved himm⟩

/-- Settles O39: the accepted words are those the encoder writes, and the refused ones have `op` = 0 and `imm` ≠ 0. -/
theorem decodeOfWrittenWords : Obligations.DecodeOfWrittenWords :=
  ⟨decodeWord_of_encode_eq (by decide) rfl, decodeWord_of_encode_eq (by decide) rfl,
    decodeWord_of_encode_eq (by decide) rfl, decodeWord_of_encode_eq (by decide) rfl,
    decodeWord_of_encode_eq (by decide) rfl, decodeWord_of_encode_eq (by decide) rfl,
    exists_error_of_reserved (by decide) (by decide), exists_error_of_reserved (by decide) (by decide)⟩

end Sys2Proof
